-- ==== Sys2Proof/Word.lean ====
section
/-! DEFINITION. The word types of HX2-KE (00_scope.md R5, R7): all unsigned, arithmetic modulo a power of two. -/

namespace Sys2Proof

/-- `u8` of R7. -/
abbrev Byte := BitVec 8

/-- `u32` of R7: a word of S, KS and W, and a command word (WORD_BITS = 32 of R5). -/
abbrev Word := BitVec 32

/-- `u64` of R7: a block index, an offset, a length. -/
abbrev U64 := BitVec 64

/-- STATE_WORDS = 16 words of R5. -/
abbrev Words := Vector Word 16

/-- A key of KEY_BYTES = 32 bytes (R5). -/
abbrev Key := Vector Byte 32

/-- A nonce of NONCE_BYTES = 20 bytes (R5). -/
abbrev Nonce := Vector Byte 20

end Sys2Proof
end

