-- ==== Sys2Proof/Machine/Operands.lean ====
section
/-! DEFINITION. Byte and word conversions, bit fields, offset split and byte selection: every operand form of HX2-KE. -/

namespace Sys2Proof.Machine

open Sys2Proof

/-- `pack4` (00_scope.md R10, 20_memory.md R34): little-endian, byte 0 in bits 7:0. -/
def pack4 (b0 b1 b2 b3 : Byte) : Word :=
  b0.zeroExtend 32 ||| (b1.zeroExtend 32 <<< 8) ||| (b2.zeroExtend 32 <<< 16) ||| (b3.zeroExtend 32 <<< 24)

/-- Byte `j` of a word: `w[8j+7:8j]` (R10). -/
def wordByte (w : Word) (j : Nat) : Byte := w.extractLsb' (8 * j) 8

/-- `unpack4` (R10), the inverse of `pack4`. -/
def unpack4 (w : Word) : List Byte := [wordByte w 0, wordByte w 1, wordByte w 2, wordByte w 3]

/-- `lo32(x) = x[31:0]` (R7). -/
def lo32 (x : U64) : Word := x.extractLsb' 0 32

/-- `hi32(x) = x[63:32]` (R7). -/
def hi32 (x : U64) : Word := x.extractLsb' 32 32

/-- `rotl32` (00_scope.md R8, 42_round_function.md R73), for `n` in [1, 31]. -/
def rotl32 (x : Word) (n : Nat) : Word := (x <<< n) ||| (x >>> (32 - n))

/-- The number a little-endian byte string stands for (20_memory.md R37). -/
def leNat : List Byte → Nat
  | [] => 0
  | b :: bs => b.toNat + 256 * leNat bs

/-- `n` bytes of a number, least significant first (R37). -/
def leBytes : Nat → Nat → List Byte
  | 0, _ => []
  | n + 1, v => BitVec.ofNat 8 v :: leBytes n (v / 256)

/-- A u64 operand from its 8 little-endian bytes (R37, R51, R53, R54). -/
def u64OfBytes (bs : List Byte) : U64 := BitVec.ofNat 64 (leNat bs)

/-- The 8 bytes of a u64 operand: byte j is `v[8j+7:8j]` (R51). -/
def bytesOfU64 (v : U64) : List Byte := leBytes 8 v.toNat

/-- The block an offset selects: `off >> 6` (41_block_index_update.md R69). -/
def blkOf (off : U64) : U64 := off >>> 6

/-- The byte position an offset selects in its block: `off & 63` (R69). -/
def posOf (off : U64) : Fin 64 := ⟨off.toNat % 64, Nat.mod_lt _ (by decide)⟩

/-- `KSByte(pos)` (44_byte_xor.md R93, 20_memory.md R35): byte `pos mod 4` of word `pos div 4`. -/
def ksByte (KS : Words) (pos : Fin 64) : Byte :=
  wordByte (KS[pos.val / 4]'(by have := pos.isLt; omega)) (pos.val % 4)

/-- `Bytes(KS)` (43_block_generator.md R87): the 64 bytes of a block. -/
def blockBytes (KS : Words) : List Byte := KS.toList.flatMap unpack4

end Sys2Proof.Machine
end

