-- ==== Sys2Proof/Syntax.lean ====
section
/-! DEFINITION. The commands of HX2-KE in typed form (30_encoding.md R49, R60) and the binary transaction (R46). -/

namespace Sys2Proof

/-- The six commands, one constructor per row of the opcode table, operands as in the typed form of R60.
Key, nonce and buffer are byte strings of any length: the commands check the lengths themselves (R66, R95). -/
inductive Instr where
  | init (key nonce : List Byte)           -- INIT, R66
  | gen (b : U64)                          -- GEN, R88
  | genNext                                -- GEN_NEXT, R89
  | advance (b : U64)                      -- ADVANCE, R90
  | xorByte (off : U64) (x : Byte)         -- XOR_BYTE, R94
  | xorBuf (start : U64) (buf : List Byte) -- XOR_BUF, R95
deriving DecidableEq, Repr

/-- One command transaction (R46): the command word CMD32 and its whole payload. The transport delivers the two
together, so the payload's length is known. -/
structure Transaction where
  word : Word
  payload : List Byte
deriving DecidableEq, Repr

/-- The opcodes of R49, by the name of their command. -/
inductive Opcode where
  | init | gen | genNext | advance | xorByte | xorBuf
deriving DecidableEq, Repr

/-- The opcode of a command. -/
def Instr.opcode : Instr → Opcode
  | .init _ _ => .init
  | .gen _ => .gen
  | .genNext => .genNext
  | .advance _ => .advance
  | .xorByte _ _ => .xorByte
  | .xorBuf _ _ => .xorBuf

end Sys2Proof
end

