-- ==== Sys2Proof/Decode.lean ====
section
/-! DEFINITION. The binary decoder of 30_encoding.md (R46 to R59), total on every transaction, and the encoder after it. -/

namespace Sys2Proof

open Sys2Proof.Machine

/-- Why the decoder turns a transaction away: R57 and R58. -/
inductive Reject where
  | illegalCommand    -- undefined OPC or a reserved bit set (R57)
  | malformedPayload  -- a legal word with a payload of the wrong length (R58)
deriving DecidableEq, Repr

/-- What the decoder reads from a transaction. -/
inductive Decoded where
  | command (i : Instr)
  | rejected (why : Reject)
deriving DecidableEq, Repr

/-- One row of the opcode table: the word matches when its masked bits equal `pattern`. -/
structure OpcodeRow where
  opcode : Opcode
  pattern : Word
  mask : Word
deriving DecidableEq, Repr

/-- opcode_table.json, the encodings of R47, R48 and R49. INIT's mask leaves KLEN and NLEN free. -/
def opcodeTable : List OpcodeRow :=
  [⟨.init, 0x00000001, 0x0000FFFF⟩,
   ⟨.gen, 0x00000002, 0xFFFFFFFF⟩,
   ⟨.genNext, 0x00000003, 0xFFFFFFFF⟩,
   ⟨.advance, 0x00000004, 0xFFFFFFFF⟩,
   ⟨.xorByte, 0x00000005, 0xFFFFFFFF⟩,
   ⟨.xorBuf, 0x00000006, 0xFFFFFFFF⟩]

/-- The OPC field, bits 7:0 (R47). -/
def opcOf (w : Word) : Byte := w.extractLsb' 0 8

/-- The KLEN field of an INIT word, bits 23:16, zero-extended (R48, R56). -/
def klenOf (w : Word) : Nat := (w.extractLsb' 16 8).toNat

/-- The NLEN field of an INIT word, bits 31:24, zero-extended (R48, R56). -/
def nlenOf (w : Word) : Nat := (w.extractLsb' 24 8).toNat

/-- The opcode a command word names, `none` when the word is illegal (R57, R59). -/
def decodeWord (w : Word) : Option Opcode :=
  (opcodeTable.find? fun r => w &&& r.mask == r.pattern).map OpcodeRow.opcode

/-- The u64 field at byte `pos` of a payload (R37, R56). -/
def u64At (p : List Byte) (pos : Nat) : U64 := u64OfBytes ((p.drop pos).take 8)

/-- The LEN field of an XOR_BUF payload, bytes 8 to 15 (R54). -/
def lenOf (p : List Byte) : Nat := (u64At p 8).toNat

/-- Whether the payload has the length its command word requires (R58). -/
def payloadFits (op : Opcode) (w : Word) (p : List Byte) : Bool :=
  match op with
  | .init => p.length == klenOf w + nlenOf w
  | .gen => p.length == 8
  | .genNext => p.length == 0
  | .advance => p.length == 8
  | .xorByte => p.length == 9
  | .xorBuf => decide (16 ≤ p.length) && p.length == 16 + lenOf p

/-- The typed command of a legal word and a payload of the right length (R50 to R54, R60). -/
def operands (op : Opcode) (w : Word) (p : List Byte) : Instr :=
  match op with
  | .init => .init (p.take (klenOf w)) (p.drop (klenOf w))
  | .gen => .gen (u64At p 0)
  | .genNext => .genNext
  | .advance => .advance (u64At p 0)
  | .xorByte => .xorByte (u64At p 0) (p.getD 8 0)
  | .xorBuf => .xorBuf (u64At p 0) (p.drop 16)

/-- The decoder: illegal words first, then malformed payloads (R57, R58, R102). -/
def decode (t : Transaction) : Decoded :=
  match decodeWord t.word with
  | none => .rejected .illegalCommand
  | some op =>
    if payloadFits op t.word t.payload then .command (operands op t.word t.payload)
    else .rejected .malformedPayload

/-- The bytes of a transaction: the command word little-endian, then the payload (R46). -/
def Transaction.bytes (t : Transaction) : List Byte := unpack4 t.word ++ t.payload

/-- A transaction from its bytes, `none` when they do not hold a whole command word. -/
def Transaction.ofBytes : List Byte → Option Transaction
  | b0 :: b1 :: b2 :: b3 :: payload => some ⟨pack4 b0 b1 b2 b3, payload⟩
  | _ => none

/-- The command word of a command: INIT carries its lengths (R48), the others are their row's pattern (R47, R49). -/
def encodeWord : Instr → Word
  | .init key nonce =>
    0x00000001 ||| (BitVec.ofNat 32 key.length <<< 16) ||| (BitVec.ofNat 32 nonce.length <<< 24)
  | .gen _ => 0x00000002
  | .genNext => 0x00000003
  | .advance _ => 0x00000004
  | .xorByte _ _ => 0x00000005
  | .xorBuf _ _ => 0x00000006

/-- The payload of a command (R50 to R54). -/
def encodePayload : Instr → List Byte
  | .init key nonce => key ++ nonce
  | .gen b => bytesOfU64 b
  | .genNext => []
  | .advance b => bytesOfU64 b
  | .xorByte off x => bytesOfU64 off ++ [x]
  | .xorBuf start buf => bytesOfU64 start ++ bytesOfU64 (BitVec.ofNat 64 buf.length) ++ buf

/-- The encoder: the transaction of a well-formed command (R46 to R54). -/
def encode (i : Instr) : Transaction := ⟨encodeWord i, encodePayload i⟩

/-- A payload filled up with zero bytes to at least `n` bytes. -/
def padTo (n : Nat) (p : List Byte) : List Byte := p ++ List.replicate (n - p.length) 0

/-- A payload filled up with zero bytes to the length its command word requires (R58). -/
def padPayload (w : Word) (p : List Byte) : List Byte :=
  match decodeWord w with
  | none => p
  | some .init => padTo (klenOf w + nlenOf w) p
  | some .gen => padTo 8 p
  | some .genNext => p
  | some .advance => padTo 8 p
  | some .xorByte => padTo 9 p
  | some .xorBuf => let q := padTo 16 p; padTo (16 + lenOf q) q

/-- The transaction whose first `nbits` bits, numbered as the opcode table numbers them (command word, then payload
bytes, each least significant bit first), are those of `w`, and whose further bits are 0. -/
def tableTransaction (nbits w : Nat) : Transaction :=
  let v := w % 2 ^ nbits
  let word := BitVec.ofNat 32 v
  ⟨word, padPayload word (leBytes ((nbits - 32) / 8) (v / 2 ^ 32))⟩

/-- The command the decoder reads from an instruction whose bits are `w` in the opcode table's numbering. -/
def decodeTableWord (nbits w : Nat) : Option Instr :=
  match decode (tableTransaction nbits w) with
  | .command i => some i
  | .rejected _ => none

end Sys2Proof
end

