-- ==== Sys2Proof/Machine/Flags.lean ====
section
/-! DEFINITION. The status codes, the only flag-like value of HX2-KE (10_state.md R21, R25; 60_exceptions.md R101). -/

namespace Sys2Proof.Machine

open Sys2Proof

/-- The defined status codes (R101). -/
inductive StatusCode where
  | ok | illegalCommand | notInitialized | invalidKeyLength | invalidNonceLength | keystreamExhausted
  | offsetOverflow | malformedPayload
deriving DecidableEq, Repr

/-- The code of a status, as written to STATUS and returned as response byte 0 (R101). -/
def StatusCode.code : StatusCode → Byte
  | .ok => 0x00
  | .illegalCommand => 0x01
  | .notInitialized => 0x02
  | .invalidKeyLength => 0x03
  | .invalidNonceLength => 0x04
  | .keystreamExhausted => 0x05
  | .offsetOverflow => 0x06
  | .malformedPayload => 0x07

/-- 0x08 to 0xFF are reserved and never returned (R101, U9). -/
def reservedCode (b : Byte) : Bool := decide (8 ≤ b.toNat)

/-- The status of a transaction the decoder turns away (R57, R58). -/
def rejectStatus : Reject → StatusCode
  | .illegalCommand => .illegalCommand
  | .malformedPayload => .malformedPayload

end Sys2Proof.Machine
end

