-- ==== Sys2Proof/Config.lean ====
section
/-! DEFINITION. What an implementation fixes (the two OPEN parameters of 00_scope.md R5) and the free values of the model. -/

namespace Sys2Proof

/-- An index quadruple `(a, b, c, d)` of a Shuffle: four pairwise distinct word indices (42_round_function.md R75).
The field `distinct` is the parameter's well-formedness check of U13, so no ill-formed quadruple can be built. -/
structure Quad where
  a : Fin 16
  b : Fin 16
  c : Fin 16
  d : Fin 16
  distinct : a ≠ b ∧ a ≠ c ∧ a ≠ d ∧ b ≠ c ∧ b ≠ d ∧ c ≠ d
deriving DecidableEq, Repr

/-- The check of U13 and R75 on four indices from outside: refuses (`none`) a quadruple with a repeated index. -/
def Quad.ofIndices (a b c d : Fin 16) : Option Quad :=
  if h : a ≠ b ∧ a ≠ c ∧ a ≠ d ∧ b ≠ c ∧ b ≠ d ∧ c ≠ d then some ⟨a, b, c, d, h⟩ else none

/-- The indices of a quadruple, in argument order. -/
def Quad.indices (q : Quad) : List (Fin 16) := [q.a, q.b, q.c, q.d]

/-- ROUND_SCHEDULE: a list of rounds, each a list of quadruples (R83). -/
abbrev Schedule := List (List Quad)

/-- FF_MODE (R81): which state the feed-forward of a round adds. -/
inductive FFMode where
  | ffOriginal   -- FF_ORIGINAL: the Permutation State S
  | ffPreRound   -- FF_PRE_ROUND: the working buffer at the start of the round
deriving DecidableEq, Repr

/-- The two OPEN parameters of R5, the premise `Params(sched, ff)` of R126. -/
structure Params where
  schedule : Schedule
  ffMode : FFMode
deriving DecidableEq, Repr

/-- The group quadruples, positions 1 to 4 of R80. -/
def groupQuads : List Quad :=
  [⟨0, 1, 2, 3, by decide⟩, ⟨4, 5, 6, 7, by decide⟩, ⟨8, 9, 10, 11, by decide⟩, ⟨12, 13, 14, 15, by decide⟩]

/-- The cross quadruples, positions 5 to 8 of R80. -/
def crossQuads : List Quad :=
  [⟨0, 5, 10, 15, by decide⟩, ⟨1, 6, 11, 12, by decide⟩, ⟨2, 7, 8, 13, by decide⟩, ⟨3, 4, 9, 14, by decide⟩]

/-- SCHED_DOC (R80): both rounds use the same list of eight quadruples. -/
def schedDoc : Schedule := [groupQuads ++ crossQuads, groupQuads ++ crossQuads]

/-- The default pair SCHED_DOC, FF_ORIGINAL of R5. DESIGN CHOICE (log entry 2): it does not reproduce the source's
known answers (R6, C4). -/
def Params.default : Params := ⟨schedDoc, .ffOriginal⟩

/-! ### Free values

Each takes the number of the draw. DESIGN CHOICE (log entry 14): it does not take the instance, so two instances that
have made equally many draws draw alike, which the spec does not say. -/

/-- Free value: draw number `n` of the scheduler between several hosts (20_memory.md R44, U6; log entries 4, 14). -/
opaque Config.schedulerDraw : Nat → Nat

/-- Free value: what S holds after reset event number `n` (10_state.md R29, U7; log entries 5, 14). -/
opaque Config.resetS : Nat → Words

/-- Free value: N0 after reset event number `n` (R29, U7; log entries 5, 14). -/
opaque Config.resetN0 : Nat → Word

/-- Free value: KS after reset event number `n` (R29, U7; log entries 5, 14). -/
opaque Config.resetKS : Nat → Words

/-- Free value: LBI after reset event number `n` (R29, U7; log entries 5, 14). -/
opaque Config.resetLBI : Nat → U64

/-- Free value: KEYREG after reset event number `n` (R29, U7; log entries 5, 14). -/
opaque Config.resetKey : Nat → Key

/-- Free value: NONCEREG after reset event number `n` (R29, U7; log entries 5, 14). -/
opaque Config.resetNonce : Nat → Nonce

end Sys2Proof
end

