-- ==== Sys2Proof/Machine/RoundFunction.lean ====
section
/-! DEFINITION. The Shuffle primitive, the round and the permutation (42_round_function.md R75 to R83). -/

namespace Sys2Proof.Machine

open Sys2Proof

/-- `Shuffle(W, a, b, c, d)` (R77): eight sequential assignments, each reading what the earlier ones wrote (R76).
With repeated indices it is still R77's sequential reading (R78). -/
def shuffle (W : Words) (a b c d : Fin 16) : Words :=
  let W := W.set c (W[c] + rotl32 ((W[a] ^^^ W[b]) + W[d]) 9)
  let W := W.set d (W[d] ^^^ rotl32 ((W[b] + W[c]) ^^^ W[a]) 13)
  let W := W.set a (W[a] + rotl32 ((W[c] ^^^ W[d]) + W[b]) 18)
  let W := W.set b (W[b] ^^^ rotl32 ((W[d] + W[a]) ^^^ W[c]) 22)
  let W := W.set c (W[c] ^^^ rotl32 (W[a] + W[b]) 7)
  let W := W.set d (W[d] + rotl32 (W[b] ^^^ W[c]) 21)
  let W := W.set a (W[a] ^^^ rotl32 (W[c] + W[d]) 11)
  W.set b (W[b] + rotl32 (W[d] ^^^ W[a]) 16)

/-- A Shuffle on a quadruple of the schedule. -/
def shuffleQuad (W : Words) (q : Quad) : Words := shuffle W q.a q.b q.c q.d

/-- The shuffles of a round, in list order (R79). -/
def shuffles (W : Words) (Q : List Quad) : Words := Q.foldl shuffleQuad W

/-- Word-wise addition modulo 2^32 (R79). -/
def addWords (W B : Words) : Words := Vector.zipWith (· + ·) W B

/-- `Round(W, Q, B)` (R79): all shuffles, then one feed-forward of `B`. -/
def roundStep (W : Words) (Q : List Quad) (B : Words) : Words := addWords (shuffles W Q) B

/-- The feed-forward base of R81: `S` (FF_ORIGINAL) or the pre-round snapshot `P` (FF_PRE_ROUND). -/
def ffBase : FFMode → Words → Words → Words
  | .ffOriginal, S, _ => S
  | .ffPreRound, _, P => P

/-- `Perm(S)` (R82): the rounds of the schedule applied to a copy of `S`; `W` is R19's working buffer. -/
def perm (p : Params) (S : Words) : Words :=
  p.schedule.foldl (fun W Q => roundStep W Q (ffBase p.ffMode S W)) S

end Sys2Proof.Machine
end

