-- ==== Sys2Proof/Machine/State.lean ====
section
/-! DEFINITION. The state of one HX2-KE instance with its host ports, the reasons a step can stop, and reset. -/

namespace Sys2Proof.Machine

open Sys2Proof

/-- Why the machine stops. Every failure the spec gives a command is a status code in its response and a next state
(60_exceptions.md R101, R104), so one reason is left. -/
inductive Fault where
  /-- Raised where a response is delivered, when its status is one of the reserved codes 0x08 to 0xFF, which the spec
  says are never returned and a model that sees one must fault on (93_implementation_defined.md U9). Safe. -/
  | reservedStatus
deriving DecidableEq, Repr

/-- Why an instruction has no meaning. -/
inductive Refusal where
  /-- Raised by exec for a command with no meaning yet. No arm raises it: every command has its meaning. Safe. -/
  | notModelled (mnemonic : String)
deriving DecidableEq, Repr

/-- A response (30_encoding.md R46, R55): the status byte, then the data. -/
structure Response where
  status : Byte
  data : List Byte
deriving DecidableEq, Repr

/-- A host attached to the instance: the commands it has still to issue, in issue order, and the responses it has
received, in order (70_reset_and_hazards.md R120, R125). The head of `script` is the one command it may have
outstanding; the next is issued only after the response (R120). -/
structure HostPort where
  script : List Transaction
  received : List Response
deriving DecidableEq, Repr

/-- The state of one instance (10_state.md R13), its configuration, and the data of its interface.
The fields from `params` on are the model's own; INVENTORY.md says why each stands here. -/
structure State where
  /-- Permutation State (R14). -/
  S : Words
  /-- The immutable first nonce word (R16). -/
  N0 : Word
  /-- Keystream Block, the one-block cache (R17). -/
  KS : Words
  /-- Last generated block index (R18). -/
  LBI : U64
  /-- INIT_DONE (R20). -/
  initDone : Bool
  /-- STATUS (R21). -/
  status : Byte
  /-- KEYREG (R22). -/
  keyReg : Key
  /-- NONCEREG (R22). -/
  nonceReg : Nonce
  /-- ROUND_SCHEDULE and FF_MODE (00_scope.md R5): configuration, written by no step (log entry 2). -/
  params : Params
  /-- The data of the last response; its status byte is STATUS (R55; log entry 3). -/
  respData : List Byte
  /-- The hosts' ports (R120, R125; log entry 3). -/
  hosts : List HostPort
  /-- The reset input (R115; log entry 3). -/
  resetLine : Bool
  /-- Commands accepted so far: the counter of the scheduler's draws (R44; log entry 4). -/
  accepted : Nat
  /-- Reset events so far: the counter of the draws of reset contents (R29; log entry 5). -/
  resets : Nat
deriving DecidableEq, Repr

/-- The instance right after reset (70_reset_and_hazards.md R116): INIT_DONE 0 and STATUS 0x00 as the spec says. The
registers the spec leaves unspecified are 0, DESIGN CHOICE, unsafe (log entry 1); the parameters are the default pair
of R5, DESIGN CHOICE, unsafe (log entry 2); no host is attached and nothing is pending (log entry 3). -/
def State.reset : State where
  S := Vector.replicate 16 0
  N0 := 0
  KS := Vector.replicate 16 0
  LBI := 0
  initDone := false
  status := 0x00
  keyReg := Vector.replicate 32 0
  nonceReg := Vector.replicate 20 0
  params := Params.default
  respData := []
  hosts := []
  resetLine := false
  accepted := 0
  resets := 0

end Sys2Proof.Machine
end

