-- ==== Sys2Proof/Machine/Ops.lean ====
section
/-! DEFINITION. The shared operations: counter injection, regeneration, ending a command (with an error or a
response), the buffer operand, the hosts' ports and the reset event. -/

namespace Sys2Proof.Machine

open Sys2Proof

/-! ### Counter injection and regeneration -/

/-- Block index `b` injected into a state with first nonce word `n0` (41_block_index_update.md R67). -/
def injectBlock (n0 : Word) (b : U64) (S : Words) : Words := (S.set 10 (lo32 b)).set 11 (n0 ^^^ hi32 b)

/-- `SetBlock(b)` (R67): writes S[10] and S[11] and nothing else. -/
def State.setBlock (b : U64) (s : State) : State := { s with S := injectBlock s.N0 b s.S }

/-- `Regen(b)` (43_block_generator.md R86). -/
def State.regen (b : U64) (s : State) : State :=
  let s1 := s.setBlock b
  { s1 with KS := perm s1.params s1.S, LBI := b }

/-- `if blk != LBI: Regen(blk)` (44_byte_xor.md R94, R95): the one-block cache. -/
def State.touch (blk : U64) (s : State) : State := if blk = s.LBI then s else s.regen blk

/-! ### Ending a command -/

/-- `respond(data)` (00_scope.md R9): STATUS <- OK, and the data of the response. -/
def State.respond (data : List Byte) (s : State) : State := { s with status := StatusCode.ok.code, respData := data }

/-- `raise Error(e)` (00_scope.md R9, 60_exceptions.md R104): what an exception is on HX2-KE. STATUS <- e, a response
without data, and no other state changes. There is no vector, saved register or return (R107, R108): the command is
complete and the engine accepts the next. -/
def State.raise (e : StatusCode) (s : State) : State := { s with status := e.code, respData := [] }

/-! ### The buffer operand of XOR_BUF, the only memory (20_memory.md R33) -/

/-- `MemRead(addr, n)` (00_scope.md R9): n bytes at index `addr` of the command's input buffer. -/
def memRead (buf : List Byte) (addr n : Nat) : List Byte := (buf.drop addr).take n

/-- `MemWrite(addr, n, v)` (R9): n bytes at index `addr` of the command's output buffer. -/
def memWrite (buf : List Byte) (addr n : Nat) (v : List Byte) : List Byte :=
  buf.take addr ++ v.take n ++ buf.drop (addr + n)

/-! ### The hosts' ports (30_encoding.md R46, 20_memory.md R44, 70_reset_and_hazards.md R120, R122, R125) -/

/-- Whether host number `h` has a command to issue. -/
def State.hasCommand (s : State) (h : Nat) : Bool :=
  match s.hosts[h]? with
  | some p => !p.script.isEmpty
  | none => false

/-- The numbers of the hosts that have a command to issue. -/
def State.ready (s : State) : List Nat := (List.range s.hosts.length).filter s.hasCommand

/-- The host whose command is accepted next. With one host ready it is that one; with several, the spec leaves the
order open (R44, U6) and the choice is a free value. DESIGN CHOICE: the draw depends on `accepted` alone and not on the
instance, so two instances with equal counters and equally many ready hosts pick alike (log entry 14). -/
def State.nextHost (s : State) : Option Nat :=
  match s.ready with
  | [] => none
  | [h] => some h
  | h :: h' :: hs =>
    (h :: h' :: hs)[Config.schedulerDraw s.accepted % (h :: h' :: hs).length]?

/-- Take host `h`'s next command off its script (R44: in the order the host issues them). -/
def State.accept (h : Nat) (s : State) : State :=
  { s with
    hosts := s.hosts.modify h fun p => { p with script := p.script.tail }
    accepted := s.accepted + 1 }

/-- The command host `h` issues next. -/
def State.offered (s : State) (h : Nat) : Option Transaction := (s.hosts[h]?).bind fun p => p.script.head?

/-- The response of the command just completed (R55): STATUS, then the data. -/
def State.response (s : State) : Response := ⟨s.status, s.respData⟩

/-- Hand the response to host `h`. -/
def State.deliver (h : Nat) (s : State) : State :=
  { s with hosts := s.hosts.modify h fun p => { p with received := p.received ++ [s.response] } }

/-- Hand the response of a completed command to host `h`; a reserved status code faults (U9). -/
def deliverOutcome (h : Nat) : Host.Outcome State Fault Refusal → Host.Outcome State Fault Refusal
  | .next s => if reservedCode s.status then .fault .reservedStatus else .next (s.deliver h)
  | .fault r => .fault r
  | .refused r => .refused r

/-- Commands not yet accepted, over all hosts. -/
def State.pendingCount (s : State) : Nat := (s.hosts.map fun p => p.script.length).sum

/-! ### Reset -/

/-- The reset event (70_reset_and_hazards.md R115, R116, R125). INIT_DONE <- 0 and STATUS <- 0x00; the registers the
spec leaves unspecified hold free values (10_state.md R29); the run ends, so no pending command has a response or an
effect. DESIGN CHOICE: the free values depend on `resets` alone and not on the instance, so two instances with equal
counters get equal reset contents (log entry 14). -/
def State.resetEvent (s : State) : State :=
  { s with
    S := Config.resetS s.resets
    N0 := Config.resetN0 s.resets
    KS := Config.resetKS s.resets
    LBI := Config.resetLBI s.resets
    initDone := false
    status := StatusCode.ok.code
    keyReg := Config.resetKey s.resets
    nonceReg := Config.resetNonce s.resets
    respData := []
    hosts := s.hosts.map fun p => { p with script := [] }
    resetLine := false
    resets := s.resets + 1 }

/-! ### Launch -/

/-- A launch with one host that issues the given commands (R125, R126 `Exclusive`). -/
def State.withScript (ts : List Transaction) (s : State) : State := { s with hosts := [⟨ts, []⟩] }

end Sys2Proof.Machine
end

