-- ==== Sys2Proof/Machine/Initializer.lean ====
section
/-! DEFINITION. The permutation-state initializer and INIT (40_initializer.md). -/

namespace Sys2Proof.Machine

open Sys2Proof

/-- `C0` of R64: "so!M" packed little-endian. The character codes are from general knowledge (G1; log entry 7). -/
def C0 : Word := pack4 0x73 0x6F 0x21 0x4D

/-- `C1` of R64: "4g1c" packed little-endian (G1; log entry 7). -/
def C1 : Word := pack4 0x34 0x67 0x31 0x63

/-- `KeyWord(i)` (R63). -/
def keyWord (key : Key) (i : Fin 8) : Word :=
  pack4 (key[4 * i.val]'(by omega)) (key[4 * i.val + 1]'(by omega)) (key[4 * i.val + 2]'(by omega))
    (key[4 * i.val + 3]'(by omega))

/-- `NonceWord(j)` (R63). -/
def nonceWord (nonce : Nonce) (j : Fin 5) : Word :=
  pack4 (nonce[4 * j.val]'(by omega)) (nonce[4 * j.val + 1]'(by omega)) (nonce[4 * j.val + 2]'(by omega))
    (nonce[4 * j.val + 3]'(by omega))

/-- `InitState(key, nonce)` (R65). -/
def initState (key : Key) (nonce : Nonce) : Words :=
  #v[C0, C1,
     keyWord key 0, keyWord key 1, keyWord key 2, keyWord key 3,
     keyWord key 4, keyWord key 5, keyWord key 6, keyWord key 7,
     0x00000000, nonceWord nonce 0 ^^^ 0x00000000,
     nonceWord nonce 1, nonceWord nonce 2, nonceWord nonce 3, nonceWord nonce 4]

/-- The registers after a successful INIT (R66), before its response. -/
def State.startSession (key : Key) (nonce : Nonce) (s : State) : State :=
  let s1 := { s with
    keyReg := key
    nonceReg := nonce
    N0 := nonceWord nonce 0
    S := initState key nonce }
  { s1.regen 0 with initDone := true }

/-- INIT (R66): the key length is checked first, then the nonce length (R102); INIT is legal in any state (R118). -/
def execInit (key nonce : List Byte) (s : State) : Host.Outcome State Fault Refusal :=
  if hk : key.length = 32 then
    if hn : nonce.length = 20 then
      .next ((s.startSession ⟨⟨key⟩, hk⟩ ⟨⟨nonce⟩, hn⟩).respond [])
    else .next (s.raise .invalidNonceLength)
  else .next (s.raise .invalidKeyLength)

end Sys2Proof.Machine
end

