-- ==== Sys2Proof/Machine/BlockGenerator.lean ====
section
/-! DEFINITION. GEN, GEN_NEXT and ADVANCE (43_block_generator.md), and the keystream as a function (R91, R100). -/

namespace Sys2Proof.Machine

open Sys2Proof

/-- GEN (R88): always regenerates, answers the 64 bytes of block `b`. -/
def execGen (b : U64) (s : State) : Host.Outcome State Fault Refusal :=
  if s.initDone then
    let s1 := s.regen b
    .next (s1.respond (blockBytes s1.KS))
  else .next (s.raise .notInitialized)

/-- GEN_NEXT (R89): the block after LBI; never wraps. -/
def execGenNext (s : State) : Host.Outcome State Fault Refusal :=
  if s.initDone then
    if s.LBI = 0xFFFFFFFFFFFFFFFF then .next (s.raise .keystreamExhausted)
    else
      let s1 := s.regen (s.LBI + 1)
      .next (s1.respond (blockBytes s1.KS))
  else .next (s.raise .notInitialized)

/-- ADVANCE (R90): regenerates at block `b`, answers nothing. -/
def execAdvance (b : U64) (s : State) : Host.Outcome State Fault Refusal :=
  if s.initDone then .next ((s.regen b).respond [])
  else .next (s.raise .notInitialized)

/-- `S_b` of R91: the state of a session with block `b` injected. -/
def sessionWords (key : Key) (nonce : Nonce) (b : U64) : Words :=
  injectBlock (nonceWord nonce 0) b (initState key nonce)

/-- `KSBlock(k, n, b)` (R91), for the parameters `p`. -/
def ksBlock (p : Params) (key : Key) (nonce : Nonce) (b : U64) : Words := perm p (sessionWords key nonce b)

/-- `Keystream(k, n, off)` (44_byte_xor.md R100), for the parameters `p`. -/
def keystream (p : Params) (key : Key) (nonce : Nonce) (off : U64) : Byte :=
  ksByte (ksBlock p key nonce (blkOf off)) (posOf off)

end Sys2Proof.Machine
end

