-- ==== Sys2Proof/Machine/ByteXor.lean ====
section
/-! DEFINITION. The seekable byte-XOR wrapper: XOR_BYTE and XOR_BUF (44_byte_xor.md). -/

namespace Sys2Proof.Machine

open Sys2Proof

/-- One byte at an absolute offset, the body shared by R94 and R95's loop: the state after the cache is brought to the
offset's block, then the output byte read from it. -/
def xorAt (off : U64) (x : Byte) (s : State) : Byte × State :=
  let s1 := s.touch (blkOf off)
  (x ^^^ ksByte s1.KS (posOf off), s1)

/-- The loop of R95 over a buffer whose first byte stands at offset `off`: each input byte is read once and each output
byte produced once, in increasing index order (20_memory.md R39). Recursion on the buffer forms no index outside it. -/
def xorBytes : U64 → List Byte → State → List Byte × State
  | _, [], s => ([], s)
  | off, x :: xs, s =>
    let (y, s1) := xorAt off x s
    let (ys, s2) := xorBytes (off + 1) xs s1
    (y :: ys, s2)

/-- XOR_BYTE (R94). -/
def execXorByte (off : U64) (x : Byte) (s : State) : Host.Outcome State Fault Refusal :=
  if s.initDone then
    let (y, s1) := xorAt off x s
    .next (s1.respond [y])
  else .next (s.raise .notInitialized)

/-- `start + len > 2^64`, computed exactly (R56, R95). -/
def offsetOverflows (start : U64) (len : Nat) : Bool := decide (2 ^ 64 < start.toNat + len)

/-- XOR_BUF (R95): the overflow check precedes the loop, so an error produces no byte. -/
def execXorBuf (start : U64) (buf : List Byte) (s : State) : Host.Outcome State Fault Refusal :=
  if s.initDone then
    if offsetOverflows start buf.length then .next (s.raise .offsetOverflow)
    else
      let (out, s1) := xorBytes start buf s
      .next (s1.respond out)
  else .next (s.raise .notInitialized)

/-- R95's loop as the spec writes it, by index through MemRead and MemWrite (20_memory.md R33): `n` iterations from
index `i`. The meaning uses `xorBytes`; a statement says the two are equal. -/
def xorBufIndexed (start : U64) (buf : List Byte) : Nat → Nat → List Byte → State → List Byte × State
  | 0, _, out, s => (out, s)
  | n + 1, i, out, s =>
    let off := start + BitVec.ofNat 64 i
    let s1 := s.touch (blkOf off)
    let v := (memRead buf i 1).map fun x => x ^^^ ksByte s1.KS (posOf off)
    xorBufIndexed start buf n (i + 1) (memWrite out i 1 v) s1

/-- The blocks R95's loop regenerates, in order, from a cache that holds block `lbi` (44_byte_xor.md R99). -/
def missedBlocks : U64 → U64 → Nat → List U64
  | _, _, 0 => []
  | lbi, off, n + 1 =>
    if blkOf off = lbi then missedBlocks lbi (off + 1) n
    else blkOf off :: missedBlocks (blkOf off) (off + 1) n

end Sys2Proof.Machine
end

