-- ==== Sys2Proof/Machine/Dispatch.lean ====
section
/-! DEFINITION. The dispatch of the six commands: one arm per constructor of Instr. -/

namespace Sys2Proof.Machine

open Sys2Proof

def exec (i : Instr) (s : State) : Host.Outcome State Fault Refusal :=
  match i with
  | .init key nonce => Sys2Proof.Machine.execInit key nonce s
  | .gen b => Sys2Proof.Machine.execGen b s
  | .genNext => Sys2Proof.Machine.execGenNext s
  | .advance b => Sys2Proof.Machine.execAdvance b s
  | .xorByte off x => Sys2Proof.Machine.execXorByte off x s
  | .xorBuf start buf => Sys2Proof.Machine.execXorBuf start buf s

end Sys2Proof.Machine
end

