-- ==== Sys2Proof/Machine/Step.lean ====
section
/-! DEFINITION. One step of the machine: a reset event, a command from request to response, or nothing to do. -/

namespace Sys2Proof.Machine

open Sys2Proof

/-- Execute one transaction: decode it, and run the command or raise the decoder's error (30_encoding.md R57 to R59,
60_exceptions.md R102). -/
def execTransaction (t : Transaction) (s : State) : Host.Outcome State Fault Refusal :=
  match decode t with
  | .command i => exec i s
  | .rejected why => .next (s.raise (rejectStatus why))

/-- One step (20_memory.md R40, R44; 70_reset_and_hazards.md R115, R119, R125). An asserted reset input wins. Otherwise
the next host's command is accepted, executed whole and answered. With no command to accept the engine is idle and its
state is retained (60_exceptions.md R114). -/
def step (s : State) : Host.Outcome State Fault Refusal :=
  if s.resetLine then .next s.resetEvent
  else
    match s.nextHost with
    | none => .next s
    | some h =>
      match s.offered h with
      | none => .next s
      | some t => deliverOutcome h (execTransaction t (s.accept h))

/-- The state in which the very next step runs the instruction whose bits are `w` (numbered as the opcode table numbers
them, further bits 0): host 0 offers it as its next command, no other host has one, and the reset input is not asserted.
A program is loaded from outside the machine (log entry 6). -/
def State.withFetchWord (s : State) (nbits w : Nat) : State :=
  let t := tableTransaction nbits w
  { s with
    resetLine := false
    hosts :=
      match s.hosts with
      | [] => [⟨[t], []⟩]
      | p :: ps => { p with script := t :: p.script } :: ps.map fun q => { q with script := [] } }

end Sys2Proof.Machine
end

