-- ==== Sys2Proof/Machine/Platform.lean ====
section
/-! DEFINITION. A platform of several instances (10_state.md R30, 60_exceptions.md R113). -/

namespace Sys2Proof.Machine

open Sys2Proof

/-- A platform holds any number of instances; each is a State of its own (R113). DESIGN CHOICE: the instances share the
free values of Config, so instances with equal counters draw alike (log entry 14). -/
abbrev Platform := List State

/-- Instance `k` makes a step; no other instance takes part. A number with no instance names nothing to step. -/
def Platform.stepAt (k : Nat) (p : Platform) : Host.Outcome Platform Fault Refusal :=
  match p[k]? with
  | none => .next p
  | some s =>
    match step s with
    | .next s' => .next (p.set k s')
    | .fault r => .fault r
    | .refused r => .refused r

end Sys2Proof.Machine
end

