-- ==== Sys2Proof/WellFormed.lean ====
section
/-! DEFINITION. Which typed commands have a binary form (30_encoding.md R48, R54, R61). -/

namespace Sys2Proof

/-- A command is well-formed when it can be sent as a transaction: KLEN and NLEN are u8, so a key and a nonce have at
most 255 bytes each (R48, R61); LEN is a u64 (R54). Every other operand fits its field by its type. -/
def Instr.wf : Instr → Bool
  | .init key nonce => decide (key.length ≤ 255) && decide (nonce.length ≤ 255)
  | .gen _ => true
  | .genNext => true
  | .advance _ => true
  | .xorByte _ _ => true
  | .xorBuf _ buf => decide (buf.length < 2 ^ 64)

end Sys2Proof
end

