-- ==== Sys2Proof/Machine/Script.lean ====
section
/-! DEFINITION. The pseudo-commands and the command-script syntax (30_encoding.md R61, R62). -/

namespace Sys2Proof.Machine

open Sys2Proof

/-- The pseudo-commands of R62. -/
inductive Pseudo where
  | encByte (off : U64) (x : Byte)
  | decByte (off : U64) (x : Byte)
  | encBuf (start : U64) (buf : List Byte)
  | decBuf (start : U64) (buf : List Byte)
  | seek (b : U64)
  | keystream (start : U64) (n : Nat)
deriving DecidableEq, Repr

/-- The expansions of R62. -/
def Pseudo.expand : Pseudo → Instr
  | .encByte off x => .xorByte off x
  | .decByte off x => .xorByte off x
  | .encBuf start buf => .xorBuf start buf
  | .decBuf start buf => .xorBuf start buf
  | .seek b => .advance b
  | .keystream start n => .xorBuf start (List.replicate n 0x00)

/-- One line of a command script (R61). -/
inductive ScriptLine where
  | command (i : Instr)
  | pseudo (p : Pseudo)
  | word (t : Transaction)   -- `.word W, h"..."`: sent verbatim, with no check
deriving DecidableEq, Repr

/-- The encoded form of a line (R61). -/
def ScriptLine.transaction : ScriptLine → Transaction
  | .command i => encode i
  | .pseudo p => encode p.expand
  | .word t => t

/-- A line can be sent when the command it stands for has a binary form: KLEN and NLEN are u8 (R61) and LEN is a u64
(R54). A `.word` line has no check (R61). DESIGN CHOICE: R61 names the limit of INIT only; a buffer line of 2^64 bytes or
more, for which no LEN exists, is refused as well (log entry 10). -/
def ScriptLine.wf : ScriptLine → Bool
  | .command i => i.wf
  | .pseudo p => p.expand.wf
  | .word _ => true

/-! ### The text of a line, as a list of characters -/

/-- The pieces of a text between separators. -/
def splitOnChar (sep : Char) : List Char → List (List Char)
  | [] => [[]]
  | c :: cs =>
    match splitOnChar sep cs with
    | [] => [[c]]
    | p :: ps => if c == sep then [] :: p :: ps else (c :: p) :: ps

/-- Space and tab. -/
def isBlank (c : Char) : Bool := c == ' ' || c == '\t'

/-- A text without its leading and trailing blanks. -/
def trim (cs : List Char) : List Char := ((cs.dropWhile isBlank).reverse.dropWhile isBlank).reverse

/-- The value of a digit below 10. -/
def decDigit (c : Char) : Option Nat :=
  if 48 ≤ c.toNat ∧ c.toNat ≤ 57 then some (c.toNat - 48) else none

/-- The value of a hexadecimal digit. -/
def hexDigit (c : Char) : Option Nat :=
  if 65 ≤ c.toNat ∧ c.toNat ≤ 70 then some (c.toNat - 55)
  else if 97 ≤ c.toNat ∧ c.toNat ≤ 102 then some (c.toNat - 87)
  else decDigit c

/-- The number a digit string stands for in base `base`, most significant digit first, after `acc`. -/
def digits (base : Nat) (digit : Char → Option Nat) : Nat → List Char → Option Nat
  | acc, [] => some acc
  | acc, c :: cs =>
    match digit c with
    | some d => digits base digit (base * acc + d) cs
    | none => none

/-- An integer of R61: decimal, or hexadecimal after `0x`. -/
def parseNat : List Char → Option Nat
  | [] => none
  | '0' :: 'x' :: c :: cs => digits 16 hexDigit 0 (c :: cs)
  | c :: cs => digits 10 decDigit 0 (c :: cs)

/-- An integer below `2^w`, as a field of width `w`. -/
def parseField (w : Nat) (cs : List Char) : Option (BitVec w) :=
  match parseNat cs with
  | some n => if n < 2 ^ w then some (BitVec.ofNat w n) else none
  | none => none

/-- Hexadecimal digit pairs with optional blanks between pairs (R61). DESIGN CHOICE: R61 allows spaces between pairs only;
blanks before the first pair, after the last, and in an empty string are accepted as well (log entry 10). -/
def parsePairs : List Char → Option (List Byte)
  | [] => some []
  | [c] => if isBlank c then some [] else none
  | c :: d :: cs =>
    if isBlank c then parsePairs (d :: cs)
    else
      match hexDigit c, hexDigit d, parsePairs cs with
      | some h, some l, some bs => some (BitVec.ofNat 8 (16 * h + l) :: bs)
      | _, _, _ => none

/-- A byte string of R61: `h"..."`, or one byte repeated: `h"XY"*n`. -/
def parseBytes (cs : List Char) : Option (List Byte) :=
  match cs with
  | 'h' :: '"' :: rest =>
    match splitOnChar '"' rest with
    | [pairs, []] => parsePairs pairs
    | [pairs, '*' :: count] =>
      match parsePairs pairs, parseNat count with
      | some [b], some n => some (List.replicate n b)
      | _, _ => none
    | _ => none
  | _ => none

/-- A named operand: the text after `name=`. -/
def afterName (name cs : List Char) : Option (List Char) :=
  if (name ++ ['=']).isPrefixOf cs then some (cs.drop (name.length + 1)) else none

/-- The operands of a line: the pieces between commas; none when there is only blank space. -/
def operandTexts (cs : List Char) : List (List Char) :=
  if (trim cs).isEmpty then [] else (splitOnChar ',' cs).map trim

/-- A line's command from its mnemonic and operands (R61, R62), before the check of `ScriptLine.wf`. -/
def parseCommand (mnemonic : List Char) (ops : List (List Char)) : Option ScriptLine :=
  if mnemonic = "INIT".toList then
    match ops with
    | [k, n] => do
      let key ← (afterName "key".toList k).bind parseBytes
      let nonce ← (afterName "nonce".toList n).bind parseBytes
      some (.command (.init key nonce))
    | _ => none
  else if mnemonic = "GEN".toList then
    match ops with
    | [b] => (parseField 64 b).map fun b => .command (.gen b)
    | _ => none
  else if mnemonic = "GEN_NEXT".toList then
    match ops with
    | [] => some (.command .genNext)
    | _ => none
  else if mnemonic = "ADVANCE".toList then
    match ops with
    | [b] => (parseField 64 b).map fun b => .command (.advance b)
    | _ => none
  else if mnemonic = "XOR_BYTE".toList then
    match ops with
    | [o, x] => do some (.command (.xorByte (← parseField 64 o) (← parseField 8 x)))
    | _ => none
  else if mnemonic = "XOR_BUF".toList then
    match ops with
    | [o, d] => do some (.command (.xorBuf (← parseField 64 o) (← parseBytes d)))
    | _ => none
  else if mnemonic = ".word".toList then
    match ops with
    | [w, d] => do some (.word ⟨← parseField 32 w, ← parseBytes d⟩)
    | _ => none
  else if mnemonic = "ENC_BYTE".toList then
    match ops with
    | [o, x] => do some (.pseudo (.encByte (← parseField 64 o) (← parseField 8 x)))
    | _ => none
  else if mnemonic = "DEC_BYTE".toList then
    match ops with
    | [o, x] => do some (.pseudo (.decByte (← parseField 64 o) (← parseField 8 x)))
    | _ => none
  else if mnemonic = "ENC_BUF".toList then
    match ops with
    | [o, d] => do some (.pseudo (.encBuf (← parseField 64 o) (← parseBytes d)))
    | _ => none
  else if mnemonic = "DEC_BUF".toList then
    match ops with
    | [o, d] => do some (.pseudo (.decBuf (← parseField 64 o) (← parseBytes d)))
    | _ => none
  else if mnemonic = "SEEK".toList then
    match ops with
    | [b] => (parseField 64 b).map fun b => .pseudo (.seek b)
    | _ => none
  else if mnemonic = "KEYSTREAM".toList then
    match ops with
    | [o, n] => do some (.pseudo (.keystream (← parseField 64 o) (← parseNat n)))
    | _ => none
  else none

/-- One line: at most one command, then an optional comment from `;` on (R61). A line with no command is `some none`;
a line that is not of R61's form, or that no transaction can carry (`ScriptLine.wf`), is `none`. -/
def parseLine (cs : List Char) : Option (Option ScriptLine) :=
  let text := trim (cs.takeWhile (· != ';'))
  if text.isEmpty then some none
  else
    match parseCommand (text.takeWhile fun c => !isBlank c) (operandTexts (text.dropWhile fun c => !isBlank c)) with
    | some line => if line.wf then some (some line) else none
    | none => none

/-- A script: its lines' commands in order. -/
def parseScript (cs : List Char) : Option (List ScriptLine) :=
  ((splitOnChar '\n' cs).mapM parseLine).map fun ls => ls.filterMap id

end Sys2Proof.Machine
end

