-- ==== Sys2Proof/Safety.lean ====
section
/-! DEFINITION. What counts as a safe run, in the terms the statements use: the invariants of 10_state.md R15 and R27,
the launch premises of 70_reset_and_hazards.md R126, and what a host can see. -/

namespace Sys2Proof.Machine

open Sys2Proof

/-- The cache invariant of R27 with R15's immutable words: once a session runs, S, N0 and KS are those of the session
whose key and nonce KEYREG and NONCEREG hold, at the block LBI names. -/
def State.CacheInv (s : State) : Prop :=
  s.initDone = true →
    s.N0 = nonceWord s.nonceReg 0 ∧
    s.S[10] = lo32 s.LBI ∧
    s.S[11] = s.N0 ^^^ hi32 s.LBI ∧
    (∀ i : Fin 16, i ≠ 10 → i ≠ 11 → s.S[i] = (initState s.keyReg s.nonceReg)[i]) ∧
    s.KS = perm s.params s.S

/-- STATUS holds one of the defined codes (60_exceptions.md R101). -/
def State.StatusLegal (s : State) : Prop := reservedCode s.status = false

/-- The invariant every step keeps. -/
def State.Inv (s : State) : Prop := s.CacheInv ∧ s.StatusLegal

/-- `AfterReset` of R126: the state of R116, the unspecified registers free. -/
def State.AfterReset (s : State) : Prop := s.initDone = false ∧ s.status = 0x00

/-- `Keyed(key, nonce)` of R126: INIT_DONE = 1, the session's registers at block 0, STATUS = 0x00. -/
def State.Keyed (key : Key) (nonce : Nonce) (s : State) : Prop :=
  s.initDone = true ∧ s.status = 0x00 ∧ s.keyReg = key ∧ s.nonceReg = nonce ∧ s.N0 = nonceWord nonce 0 ∧
  s.LBI = 0 ∧ s.S = initState key nonce ∧ s.KS = ksBlock s.params key nonce 0

/-- `Params(sched, ff)` of R126. -/
def State.HasParams (sched : Schedule) (ff : FFMode) (s : State) : Prop := s.params = ⟨sched, ff⟩

/-- `Exclusive` of R126: one host, number `h`, issues every command of the run; the other ports, if any, have nothing to
issue. `ProtocolKept` holds of every State, since a port issues its next command only after the response to the one
before (log entry 8). -/
def State.Exclusive (s : State) : Prop :=
  ∃ h : Nat, ∀ (k : Nat) (p : HostPort), s.hosts[k]? = some p → k ≠ h → p.script = []

/-- No error occurred for a host: R126 says to read the status byte of every response. -/
def HostPort.NoError (p : HostPort) : Prop := ∀ r ∈ p.received, r.status = 0x00

/-- Two states a host cannot tell apart (60_exceptions.md R105, 70_reset_and_hazards.md R116): equal but, while
INIT_DONE = 0, for the registers whose reset contents are unspecified. -/
def SameView (s t : State) : Prop :=
  t = { s with S := t.S, N0 := t.N0, KS := t.KS, LBI := t.LBI, keyReg := t.keyReg, nonceReg := t.nonceReg } ∧
  (s.initDone = true → s = t)

/-- Two states equal but for KEYREG and NONCEREG, which nothing reads (10_state.md R22). -/
def SameButKeyCopies (s t : State) : Prop := t = { s with keyReg := t.keyReg, nonceReg := t.nonceReg }

/-- The sequence of XOR_BYTE commands of 44_byte_xor.md R96, each from the state the one before left: the bytes they
answer, and the last state; `none` when one of them does not complete. -/
def xorByteSequence : U64 → List Byte → State → Option (List Byte × State)
  | _, [], s => some ([], s)
  | off, x :: xs, s =>
    match exec (.xorByte off x) s with
    | .next s1 => (xorByteSequence (off + 1) xs s1).map fun r => (s1.respData ++ r.1, r.2)
    | _ => none

end Sys2Proof.Machine
end

