-- ==== Sys2Proof/Certificates/Slice0/Obligations.lean ====
section
/-! DEFINITION. The statements for the provers. -/

open Sys2Proof Sys2Proof.Machine

/-! ### Encoding and decoding (30_encoding.md) -/

/-- Every well-formed command survives its binary form, with every operand at every value (R46 to R60). -/
def Obligations.DecodeEncodeIsIdentity : Prop :=
  ∀ i : Instr, i.wf = true → decode (encode i) = .command i

/-- A transaction the decoder accepts is the encoding of the well-formed command it reads: each legal, well-formed
transaction has exactly one meaning (R60). -/
def Obligations.EncodeDecodedIsIdentity : Prop :=
  ∀ (t : Transaction) (i : Instr), decode t = .command i → i.wf = true ∧ encode i = t

/-- The command word travels as 4 bytes little-endian before the payload (R46), and no bit of it is lost. -/
def Obligations.TransactionBytesRoundTrip : Prop :=
  (∀ t : Transaction,
    t.bytes = [t.word.extractLsb' 0 8, t.word.extractLsb' 8 8, t.word.extractLsb' 16 8, t.word.extractLsb' 24 8]
      ++ t.payload) ∧
  (∀ t : Transaction, Transaction.ofBytes t.bytes = some t) ∧
  (∀ (bs : List Byte) (t : Transaction), Transaction.ofBytes bs = some t → t.bytes = bs)

/-- Transactions written out byte by byte from R47 to R54 decode to their commands (95_test_vectors.md P1, P2). -/
def Obligations.DecodesSpecTransactions : Prop :=
  (Transaction.ofBytes [0x01, 0x00, 0x01, 0x02, 0xAA, 0xBB, 0xCC]).map decode
    = some (.command (.init [0xAA] [0xBB, 0xCC])) ∧
  (Transaction.ofBytes [0x02, 0, 0, 0, 0x02, 0x01, 0, 0, 0, 0, 0, 0x80]).map decode
    = some (.command (.gen 0x8000000000000102)) ∧
  (Transaction.ofBytes [0x03, 0, 0, 0]).map decode = some (.command .genNext) ∧
  (Transaction.ofBytes [0x04, 0, 0, 0, 0xFF, 0xFF, 0xFF, 0xFF, 0, 0, 0, 0]).map decode
    = some (.command (.advance 0xFFFFFFFF)) ∧
  (Transaction.ofBytes [0x05, 0, 0, 0, 0x2C, 0x01, 0, 0, 0, 0, 0, 0, 0x41]).map decode
    = some (.command (.xorByte 300 0x41)) ∧
  (Transaction.ofBytes [0x06, 0, 0, 0, 0x3C, 0, 0, 0, 0, 0, 0, 0, 0x02, 0, 0, 0, 0, 0, 0, 0, 0x48, 0x45]).map decode
    = some (.command (.xorBuf 60 [0x48, 0x45]))

/-- R57: which command words are illegal, whatever the payload, and what such a transaction does. -/
def Obligations.IllegalWordsExactly : Prop :=
  ∀ t : Transaction,
    let opc := t.word.extractLsb' 0 8
    (decode t = .rejected .illegalCommand ↔
      opc = 0x00 ∨ 0x07 ≤ opc.toNat ∨
      (opc = 0x01 ∧ t.word.extractLsb' 8 8 ≠ 0) ∨
      (opc ≠ 0x01 ∧ t.word.extractLsb' 8 24 ≠ 0)) ∧
    (decode t = .rejected .illegalCommand →
      ∀ s : State, execTransaction t s = .next { s with status := 0x01, respData := [] })

/-- R58: which legal command words have a malformed payload, and what such a transaction does. -/
def Obligations.MalformedPayloadsExactly : Prop :=
  ∀ t : Transaction, decode t ≠ .rejected .illegalCommand →
    let opc := t.word.extractLsb' 0 8
    let n := t.payload.length
    (decode t = .rejected .malformedPayload ↔
      ¬ ((opc = 0x01 ∧ n = (t.word.extractLsb' 16 8).toNat + (t.word.extractLsb' 24 8).toNat) ∨
         (opc = 0x02 ∧ n = 8) ∨ (opc = 0x03 ∧ n = 0) ∨ (opc = 0x04 ∧ n = 8) ∨ (opc = 0x05 ∧ n = 9) ∨
         (opc = 0x06 ∧ 16 ≤ n ∧
           ∃ len : U64, (∀ j, j < 8 → t.payload[8 + j]? = some (len.extractLsb' (8 * j) 8)) ∧ n = 16 + len.toNat))) ∧
    (decode t = .rejected .malformedPayload →
      ∀ s : State, execTransaction t s = .next { s with status := 0x07, respData := [] })

/-- R51: GEN and ADVANCE read the block index from 8 payload bytes, payload byte j being bits 8j+7:8j. -/
def Obligations.BlockIndexPayload : Prop :=
  ∀ p : List Byte, p.length = 8 →
    ∃ b : U64, (∀ j, j < 8 → p[j]? = some (b.extractLsb' (8 * j) 8)) ∧
      decode ⟨0x00000002, p⟩ = .command (.gen b) ∧ decode ⟨0x00000004, p⟩ = .command (.advance b)

/-- R52 and R53: GEN_NEXT has an empty payload; XOR_BYTE reads OFF from bytes 0 to 7 and X from byte 8. -/
def Obligations.GenNextAndXorBytePayload : Prop :=
  decode ⟨0x00000003, []⟩ = .command .genNext ∧
  ∀ p : List Byte, p.length = 9 →
    ∃ (off : U64) (x : Byte), (∀ j, j < 8 → p[j]? = some (off.extractLsb' (8 * j) 8)) ∧ p[8]? = some x ∧
      decode ⟨0x00000005, p⟩ = .command (.xorByte off x)

/-- R48 and R50: INIT reads KLEN and NLEN from the word, the key from bytes 0 to KLEN-1 and the nonce from the
NLEN bytes after it; a wrong length is a legal encoding. -/
def Obligations.InitPayload : Prop :=
  ∀ (w : Word) (key nonce : List Byte), w.extractLsb' 0 16 = 0x0001 →
    key.length = (w.extractLsb' 16 8).toNat → nonce.length = (w.extractLsb' 24 8).toNat →
    decode ⟨w, key ++ nonce⟩ = .command (.init key nonce)

/-- R54: XOR_BUF reads START from bytes 0 to 7, LEN from bytes 8 to 15 and the buffer after them. -/
def Obligations.XorBufPayload : Prop :=
  ∀ (start len : U64) (h buf : List Byte), h.length = 16 →
    (∀ j, j < 8 → h[j]? = some (start.extractLsb' (8 * j) 8)) →
    (∀ j, j < 8 → h[8 + j]? = some (len.extractLsb' (8 * j) 8)) →
    buf.length = len.toNat →
    decode ⟨0x00000006, h ++ buf⟩ = .command (.xorBuf start buf)

/-! ### The step -/

/-- A step is the accepted host's command: decoded, executed whole and answered; a transaction the decoder turns away
is answered with its status code. -/
def Obligations.StepRunsAcceptedCommand : Prop :=
  ∀ (s : State) (h : Nat) (t : Transaction), s.resetLine = false → s.nextHost = some h → s.offered h = some t →
    (∀ i, decode t = .command i → step s = deliverOutcome h (exec i (s.accept h))) ∧
    (∀ why, decode t = .rejected why →
      step s = deliverOutcome h (.next ((s.accept h).raise (rejectStatus why))))

/-- The instruction the decoder reads from a table word is what the very next step of `withFetchWord` runs. -/
def Obligations.FetchedWordIsStepped : Prop :=
  ∀ (s : State) (nbits w : Nat) (i : Instr), decodeTableWord nbits w = some i →
    step (s.withFetchWord nbits w) = deliverOutcome 0 (exec i ((s.withFetchWord nbits w).accept 0))

/-- With no command to accept the engine is idle and its state is retained (60_exceptions.md R114). -/
def Obligations.IdleStepRetainsState : Prop :=
  ∀ s : State, s.resetLine = false → (∀ p ∈ s.hosts, p.script = []) → step s = .next s

/-- The reset event (70_reset_and_hazards.md R115, R116, R125): INIT_DONE and STATUS cleared, pending commands dropped
without a response, the parameters kept. Nothing is said of the unspecified registers. -/
def Obligations.ResetEventEndsTheRun : Prop :=
  ∀ s : State, s.resetLine = true → ∃ t, step s = .next t ∧ t.initDone = false ∧ t.status = 0x00 ∧
    t.resetLine = false ∧ t.params = s.params ∧ t.hosts = s.hosts.map (fun p => ⟨[], p.received⟩)

/-- What reset leaves, where the spec gives a value (R116). -/
def Obligations.ResetClearsInitDoneAndStatus : Prop :=
  State.reset.initDone = false ∧ State.reset.status = 0x00

/-- Each step without reset serves one host: the head of its script is accepted and answered with exactly one
response, the other hosts are untouched (20_memory.md R40, R44; 30_encoding.md R55; 70_reset_and_hazards.md R120). -/
def Obligations.EachStepServesOneHost : Prop :=
  ∀ s : State, s.resetLine = false → (∃ p ∈ s.hosts, p.script ≠ []) →
    ∃ (h : Nat) (p : HostPort) (t : Transaction) (rest : List Transaction) (s' : State),
      s.hosts[h]? = some p ∧ p.script = t :: rest ∧ step s = .next s' ∧
      s'.hosts = s.hosts.set h ⟨rest, p.received ++ [⟨s'.status, s'.respData⟩]⟩ ∧
      s'.accepted = s.accepted + 1 ∧ s'.resetLine = false

/-- A run ends (R125): after as many steps as there are commands every script is empty, and each host holds one more
response per command it issued, whatever the scheduler draws and whatever fails. -/
def Obligations.RunServesEveryCommand : Prop :=
  ∀ s : State, s.resetLine = false →
    ∃ s', core.run s.pendingCount s = .next s' ∧ (∀ p ∈ s'.hosts, p.script = []) ∧
      s'.hosts.map (fun p => p.received.length) = s.hosts.map (fun p => p.received.length + p.script.length)

/-- No state stops the machine: every step answers a next state, so a failing command is not a halt (R104, R125) and no
reserved status code is ever returned (R101, U9). -/
def Obligations.EveryStepAnswersNext : Prop :=
  ∀ s : State, ∃ s', step s = .next s'

/-! ### Errors (60_exceptions.md) -/

/-- R101, R103: every command completes, with one of the status codes its row of R103 allows. -/
def Obligations.StatusCodesPerCommand : Prop :=
  ∀ (i : Instr) (s : State), ∃ t, exec i s = .next t ∧
    match i with
    | .init _ _ => t.status = 0x00 ∨ t.status = 0x03 ∨ t.status = 0x04
    | .gen _ => t.status = 0x00 ∨ t.status = 0x02
    | .genNext => t.status = 0x00 ∨ t.status = 0x02 ∨ t.status = 0x05
    | .advance _ => t.status = 0x00 ∨ t.status = 0x02
    | .xorByte _ _ => t.status = 0x00 ∨ t.status = 0x02
    | .xorBuf _ _ => t.status = 0x00 ∨ t.status = 0x02 ∨ t.status = 0x06

/-- R102: the first failing check decides, in the order illegal, malformed, not initialized, then the operand checks of
INIT (key, then nonce), GEN_NEXT and XOR_BUF. -/
def Obligations.FirstFailingCheckDecides : Prop :=
  ∀ (t : Transaction) (s : State),
    let fails (code : Byte) : Prop := execTransaction t s = .next { s with status := code, respData := [] }
    (decodeWord t.word = none → fails 0x01) ∧
    (∀ op, decodeWord t.word = some op → payloadFits op t.word t.payload = false → fails 0x07) ∧
    (∀ i, decode t = .command i → i.opcode ≠ .init → s.initDone = false → fails 0x02) ∧
    (∀ key nonce, decode t = .command (.init key nonce) → key.length ≠ 32 → fails 0x03) ∧
    (∀ key nonce, decode t = .command (.init key nonce) → key.length = 32 → nonce.length ≠ 20 → fails 0x04) ∧
    (decode t = .command .genNext → s.initDone = true → s.LBI = 0xFFFFFFFFFFFFFFFF → fails 0x05) ∧
    (∀ start buf, decode t = .command (.xorBuf start buf) → s.initDone = true →
      2 ^ 64 < start.toNat + buf.length → fails 0x06)

/-- R104: a command that fails writes STATUS and answers its code alone; no other state changes, and the next command
runs as it would have without the failed one. -/
def Obligations.ErrorChangesOnlyStatus : Prop :=
  ∀ (t : Transaction) (s s' : State), execTransaction t s = .next s' → s'.status ≠ 0x00 →
    s' = { s with status := s'.status, respData := [] } ∧ s'.response = ⟨s'.status, []⟩ ∧
    ∀ next : Transaction, execTransaction next s' = execTransaction next s

/-- R105: while INIT_DONE = 0 every command other than INIT fails with ERR_NOT_INITIALIZED. -/
def Obligations.NotInitializedBeforeInit : Prop :=
  ∀ (i : Instr) (s : State), s.initDone = false → i.opcode ≠ .init →
    exec i s = .next { s with status := 0x02, respData := [] }

/-- R21: STATUS is not sticky, and neither it nor the last response's data influences a command. -/
def Obligations.StatusIsOverwritten : Prop :=
  ∀ (i : Instr) (s : State) (code : Byte) (data : List Byte),
    exec i { s with status := code, respData := data } = exec i s

/-! ### INIT (40_initializer.md) -/

/-- R66: INIT with a 32-byte key and a 20-byte nonce completes in any state and replaces the session; a wrong key
length, then a wrong nonce length, is the error it answers. Its word is 0x14200001, its payload key then nonce. -/
def Obligations.InitCompletes : Prop :=
  ∀ (key nonce : List Byte) (s : State),
    (∀ (hk : key.length = 32) (hn : nonce.length = 20),
      let k : Key := ⟨⟨key⟩, hk⟩
      let n : Nonce := ⟨⟨nonce⟩, hn⟩
      encode (.init key nonce) = ⟨0x14200001, key ++ nonce⟩ ∧
      exec (.init key nonce) s = .next { s with
        keyReg := k
        nonceReg := n
        N0 := nonceWord n 0
        S := initState k n
        KS := perm s.params (initState k n)
        LBI := 0
        initDone := true
        status := 0x00
        respData := [] }) ∧
    (key.length ≠ 32 → exec (.init key nonce) s = .next { s with status := 0x03, respData := [] }) ∧
    (key.length = 32 → nonce.length ≠ 20 →
      exec (.init key nonce) s = .next { s with status := 0x04, respData := [] })

/-- R63, R64, R65: InitState word by word, each key and nonce word packed little-endian from its four bytes. -/
def Obligations.InitStateLayout : Prop :=
  ∀ (key : Key) (nonce : Nonce),
    (initState key nonce)[0] = 0x4D216F73 ∧ (initState key nonce)[1] = 0x63316734 ∧
    (∀ (i j : Nat) (hi : i < 8) (hj : j < 4),
      ((initState key nonce)[2 + i]'(by omega)).extractLsb' (8 * j) 8 = key[4 * i + j]'(by omega)) ∧
    (initState key nonce)[10] = 0 ∧
    (∀ (j : Nat) (hj : j < 4), ((initState key nonce)[11]).extractLsb' (8 * j) 8 = nonce[j]'(by omega)) ∧
    (∀ (i j : Nat) (hi : i < 4) (hj : j < 4),
      ((initState key nonce)[12 + i]'(by omega)).extractLsb' (8 * j) 8 = nonce[4 + 4 * i + j]'(by omega))

/-- 00_scope.md R10, 20_memory.md R34: byte j of `unpack4(w)` is `w[8j+7:8j]`, and `unpack4` is `pack4`'s inverse. -/
def Obligations.PackAndUnpackAreInverse : Prop :=
  (∀ b0 b1 b2 b3 : Byte, unpack4 (pack4 b0 b1 b2 b3) = [b0, b1, b2, b3]) ∧
  (∀ w : Word, unpack4 w = [w.extractLsb' 0 8, w.extractLsb' 8 8, w.extractLsb' 16 8, w.extractLsb' 24 8]) ∧
  (∀ w : Word, pack4 (w.extractLsb' 0 8) (w.extractLsb' 8 8) (w.extractLsb' 16 8) (w.extractLsb' 24 8) = w)

/-! ### Counter injection and offsets (41_block_index_update.md) -/

/-- R67: SetBlock writes exactly S[10] and S[11], from N0 and the block index, whichever block was injected before. -/
def Obligations.SetBlockWritesTwoWords : Prop :=
  ∀ (b c : U64) (s : State),
    (s.setBlock b).S[10] = b.extractLsb' 0 32 ∧
    (s.setBlock b).S[11] = s.N0 ^^^ b.extractLsb' 32 32 ∧
    (∀ i : Fin 16, i ≠ 10 → i ≠ 11 → (s.setBlock b).S[i] = s.S[i]) ∧
    s.setBlock b = { s with S := (s.setBlock b).S } ∧
    (s.setBlock c).setBlock b = s.setBlock b

/-- R68: for one session, distinct block indices give distinct pairs of state words 10 and 11. -/
def Obligations.CounterInjectionIsInjective : Prop :=
  ∀ (n0 : Word) (S : Words) (b b' : U64), b ≠ b' →
    ((injectBlock n0 b S)[10], (injectBlock n0 b S)[11]) ≠ ((injectBlock n0 b' S)[10], (injectBlock n0 b' S)[11])

/-- R71: the counter boundary values. -/
def Obligations.CounterBoundaryValues : Prop :=
  ∀ (n0 : Word) (S : Words),
    (injectBlock n0 0x00000000FFFFFFFF S)[10] = 0xFFFFFFFF ∧ (injectBlock n0 0x00000000FFFFFFFF S)[11] = n0 ∧
    (injectBlock n0 0x0000000100000000 S)[10] = 0x00000000 ∧
    (injectBlock n0 0x0000000100000000 S)[11] = n0 ^^^ 0x00000001 ∧
    (injectBlock n0 0xFFFFFFFFFFFFFFFF S)[10] = 0xFFFFFFFF ∧
    (injectBlock n0 0xFFFFFFFFFFFFFFFF S)[11] = n0 ^^^ 0xFFFFFFFF

/-- R69: a byte offset selects block `floor(off / 64)`, at most 2^58 - 1, and position `off mod 64`. -/
def Obligations.OffsetSplit : Prop :=
  ∀ off : U64, (blkOf off).toNat = off.toNat / 64 ∧ blkOf off = off >>> 6 ∧ (blkOf off).toNat ≤ 2 ^ 58 - 1 ∧
    (posOf off).val = off.toNat % 64 ∧ (posOf off).val = (off &&& 63).toNat

/-- R70: XOR_BYTE and XOR_BUF only ever inject blocks up to 0x03FFFFFFFFFFFFFF. -/
def Obligations.OffsetsReachLowBlocksOnly : Prop :=
  ∀ (i : Instr) (s t : State), (i.opcode = .xorByte ∨ i.opcode = .xorBuf) → exec i s = .next t →
    t.LBI = s.LBI ∨ (t.LBI.toNat ≤ 0x03FFFFFFFFFFFFFF ∧ (hi32 t.LBI).toNat ≤ 0x03FFFFFF)

/-- R72: nonces that agree in bytes 4 to 19 alias, whatever the parameters: block `b` of one session has the words and
so the keystream block of block `{hi32(b) ^ d, lo32(b)}` of the other. -/
def Obligations.CrossNonceAliasing : Prop :=
  ∀ (p : Params) (key : Key) (n n' : Nonce) (b : U64), (∀ i : Fin 20, 4 ≤ i.val → n[i] = n'[i]) →
    let d : Word := nonceWord n 0 ^^^ nonceWord n' 0
    let b' : U64 := (hi32 b ^^^ d) ++ lo32 b
    sessionWords key n b = sessionWords key n' b' ∧ ksBlock p key n b = ksBlock p key n' b'

/-! ### The permutation (42_round_function.md) -/

/-- R73: bit i of `rotl32(x, n)` is bit (i - n) mod 32 of x. -/
def Obligations.RotationMovesBits : Prop :=
  ∀ (x : Word) (n : Nat), 1 ≤ n → n ≤ 31 → ∀ i, i < 32 →
    (rotl32 x n).getLsbD i = x.getLsbD ((i + 32 - n) % 32)

/-- R76, R77: the eight steps of a Shuffle on its four words, in order, and no other word changes. -/
def Obligations.ShuffleFollowsItsSteps : Prop :=
  ∀ (W : Words) (q : Quad),
    let c1 := W[q.c] + rotl32 ((W[q.a] ^^^ W[q.b]) + W[q.d]) 9
    let d2 := W[q.d] ^^^ rotl32 ((W[q.b] + c1) ^^^ W[q.a]) 13
    let a3 := W[q.a] + rotl32 ((c1 ^^^ d2) + W[q.b]) 18
    let b4 := W[q.b] ^^^ rotl32 ((d2 + a3) ^^^ c1) 22
    let c5 := c1 ^^^ rotl32 (a3 + b4) 7
    let d6 := d2 + rotl32 (b4 ^^^ c5) 21
    let a7 := a3 ^^^ rotl32 (c5 + d6) 11
    let b8 := b4 + rotl32 (d6 ^^^ a7) 16
    (shuffleQuad W q)[q.a] = a7 ∧ (shuffleQuad W q)[q.b] = b8 ∧ (shuffleQuad W q)[q.c] = c5 ∧
    (shuffleQuad W q)[q.d] = d6 ∧
    (∀ i : Fin 16, i ∉ q.indices → (shuffleQuad W q)[i] = W[i])

/-- R78: shuffles on disjoint quadruples commute, and zero is a fixed point. -/
def Obligations.DisjointShufflesCommute : Prop :=
  (∀ (W : Words) (q r : Quad), (∀ i ∈ q.indices, i ∉ r.indices) →
    shuffleQuad (shuffleQuad W q) r = shuffleQuad (shuffleQuad W r) q) ∧
  (∀ (W : Words) (q : Quad), (∀ i ∈ q.indices, W[i] = 0) → shuffleQuad W q = W)

/-- R79, R82: a round runs its shuffles in list order and then adds its base word-wise; a permutation of no rounds is
the identity, and one more round adds S (FF_ORIGINAL) or the state before that round (FF_PRE_ROUND). -/
def Obligations.PermutationFeedsForward : Prop :=
  (∀ W : Words, shuffles W [] = W) ∧
  (∀ (W : Words) (q : Quad) (Q : List Quad),
    shuffles W (q :: Q) = shuffles (shuffle W q.a q.b q.c q.d) Q) ∧
  (∀ (ff : FFMode) (S : Words), perm ⟨[], ff⟩ S = S) ∧
  (∀ (sched : Schedule) (Q : List Quad) (S : Words) (i : Fin 16),
    (perm ⟨sched ++ [Q], .ffOriginal⟩ S)[i] = (shuffles (perm ⟨sched, .ffOriginal⟩ S) Q)[i] + S[i]) ∧
  (∀ (sched : Schedule) (Q : List Quad) (S : Words) (i : Fin 16),
    (perm ⟨sched ++ [Q], .ffPreRound⟩ S)[i]
      = (shuffles (perm ⟨sched, .ffPreRound⟩ S) Q)[i] + (perm ⟨sched, .ffPreRound⟩ S)[i])

/-- R80, R83, R85: the default schedule's quadruples in order, two rounds of eight. -/
def Obligations.DefaultScheduleQuadruples : Prop :=
  schedDoc.map (fun round => round.map Quad.indices) =
    [[[0, 1, 2, 3], [4, 5, 6, 7], [8, 9, 10, 11], [12, 13, 14, 15],
      [0, 5, 10, 15], [1, 6, 11, 12], [2, 7, 8, 13], [3, 4, 9, 14]],
     [[0, 1, 2, 3], [4, 5, 6, 7], [8, 9, 10, 11], [12, 13, 14, 15],
      [0, 5, 10, 15], [1, 6, 11, 12], [2, 7, 8, 13], [3, 4, 9, 14]]]

/-! ### The block generator (43_block_generator.md) -/

/-- R87, R93, R35: a block is 64 bytes, byte p being byte p mod 4 of word p div 4, and KSByte reads the same byte. -/
def Obligations.BlockBytesLayout : Prop :=
  ∀ KS : Words, (blockBytes KS).length = 64 ∧
    ∀ p : Fin 64,
      (blockBytes KS)[p.val]? = some ((KS[p.val / 4]'(by omega)).extractLsb' (8 * (p.val % 4)) 8) ∧
      (blockBytes KS)[p.val]? = some (ksByte KS p)

/-- R88: GEN regenerates block b and answers its 64 bytes; before INIT it fails. Nothing else changes. -/
def Obligations.GenCompletes : Prop :=
  ∀ (b : U64) (s : State),
    let S' := injectBlock s.N0 b s.S
    (s.initDone = true → exec (.gen b) s = .next { s with
      S := S'
      KS := perm s.params S'
      LBI := b
      status := 0x00
      respData := blockBytes (perm s.params S') }) ∧
    (s.initDone = false → exec (.gen b) s = .next { s with status := 0x02, respData := [] }) ∧
    encode (.gen b) = ⟨0x00000002, bytesOfU64 b⟩

/-- R89: GEN_NEXT regenerates the block after LBI and answers its bytes; at the last block it fails, as before INIT. -/
def Obligations.GenNextCompletes : Prop :=
  ∀ s : State,
    let S' := injectBlock s.N0 (s.LBI + 1) s.S
    (s.initDone = true → s.LBI ≠ 0xFFFFFFFFFFFFFFFF → exec .genNext s = .next { s with
      S := S'
      KS := perm s.params S'
      LBI := s.LBI + 1
      status := 0x00
      respData := blockBytes (perm s.params S') }) ∧
    (s.initDone = true → s.LBI = 0xFFFFFFFFFFFFFFFF →
      exec .genNext s = .next { s with status := 0x05, respData := [] }) ∧
    (s.initDone = false → exec .genNext s = .next { s with status := 0x02, respData := [] }) ∧
    encode .genNext = ⟨0x00000003, []⟩

/-- R90: ADVANCE regenerates block b and answers nothing; before INIT it fails. Nothing else changes. -/
def Obligations.AdvanceCompletes : Prop :=
  ∀ (b : U64) (s : State),
    let S' := injectBlock s.N0 b s.S
    (s.initDone = true → exec (.advance b) s = .next { s with
      S := S'
      KS := perm s.params S'
      LBI := b
      status := 0x00
      respData := [] }) ∧
    (s.initDone = false → exec (.advance b) s = .next { s with status := 0x02, respData := [] }) ∧
    encode (.advance b) = ⟨0x00000004, bytesOfU64 b⟩

/-- R91, R92: in every state of a session, GEN b answers the session's block b and GEN_NEXT the block after LBI,
whatever ran since INIT. -/
def Obligations.BlocksDependOnSessionOnly : Prop :=
  ∀ (b : U64) (s : State), s.CacheInv → s.initDone = true →
    (∃ t, exec (.gen b) s = .next t ∧ t.status = 0x00 ∧
      t.respData = blockBytes (ksBlock s.params s.keyReg s.nonceReg b)) ∧
    (s.LBI ≠ 0xFFFFFFFFFFFFFFFF → ∃ t, exec .genNext s = .next t ∧ t.status = 0x00 ∧
      t.respData = blockBytes (ksBlock s.params s.keyReg s.nonceReg (s.LBI + 1)))

/-- 20_memory.md R41: INIT, GEN and ADVANCE are idempotent in state and output; in a session XOR_BYTE and XOR_BUF are
idempotent in output. -/
def Obligations.CommandsAreIdempotent : Prop :=
  ∀ (i : Instr) (s t : State), exec i s = .next t →
    ((i.opcode = .init ∨ i.opcode = .gen ∨ i.opcode = .advance) → exec i t = .next t) ∧
    ((i.opcode = .xorByte ∨ i.opcode = .xorBuf) → s.CacheInv →
      ∃ u, exec i t = .next u ∧ u.status = t.status ∧ u.respData = t.respData)

/-! ### The byte-XOR wrapper (44_byte_xor.md) -/

/-- R94: XOR_BYTE on a cache hit and on a miss; before INIT it fails. Nothing else changes. -/
def Obligations.XorByteCompletes : Prop :=
  ∀ (off : U64) (x : Byte) (s : State),
    let blk := off >>> 6
    let S' := injectBlock s.N0 blk s.S
    (s.initDone = true → blk = s.LBI → exec (.xorByte off x) s = .next { s with
      status := 0x00
      respData := [x ^^^ ksByte s.KS (posOf off)] }) ∧
    (s.initDone = true → blk ≠ s.LBI → exec (.xorByte off x) s = .next { s with
      S := S'
      KS := perm s.params S'
      LBI := blk
      status := 0x00
      respData := [x ^^^ ksByte (perm s.params S') (posOf off)] }) ∧
    (s.initDone = false → exec (.xorByte off x) s = .next { s with status := 0x02, respData := [] }) ∧
    encode (.xorByte off x) = ⟨0x00000005, bytesOfU64 off ++ [x]⟩

/-- R95: XOR_BUF completes for every range that ends at or before 2^64, in any state with INIT_DONE = 1: every output
byte is its input byte XORed with the keystream byte of its offset's block (the cached block while the buffer is still
in it), LBI is the last byte's block, and nothing changes but S[10], S[11], KS, LBI, STATUS and the response; a range
past 2^64 fails. -/
def Obligations.XorBufCompletes : Prop :=
  ∀ (start : U64) (buf : List Byte) (s : State),
    (s.initDone = true → start.toNat + buf.length ≤ 2 ^ 64 →
      ∃ t, exec (.xorBuf start buf) s = .next t ∧ t.status = 0x00 ∧ t.respData.length = buf.length ∧
        (∀ i, i < buf.length →
          let off : U64 := start + BitVec.ofNat 64 i
          let block := if blkOf start = s.LBI ∧ blkOf off = s.LBI then s.KS
            else perm s.params (injectBlock s.N0 (blkOf off) s.S)
          t.respData[i]? = buf[i]?.map (fun x => x ^^^ ksByte block (posOf off))) ∧
        t = { s with S := t.S, KS := t.KS, LBI := t.LBI, status := 0x00, respData := t.respData } ∧
        (∀ i : Fin 16, i ≠ 10 → i ≠ 11 → t.S[i] = s.S[i]) ∧
        (buf = [] → t.S = s.S ∧ t.KS = s.KS ∧ t.LBI = s.LBI) ∧
        (buf ≠ [] → t.LBI = (start + BitVec.ofNat 64 (buf.length - 1)) >>> 6)) ∧
    (s.initDone = true → 2 ^ 64 < start.toNat + buf.length →
      exec (.xorBuf start buf) s = .next { s with status := 0x06, respData := [] }) ∧
    (s.initDone = false → exec (.xorBuf start buf) s = .next { s with status := 0x02, respData := [] }) ∧
    encode (.xorBuf start buf) =
      ⟨0x00000006, bytesOfU64 start ++ bytesOfU64 (BitVec.ofNat 64 buf.length) ++ buf⟩

/-- R33, R95: the recursion on the buffer that the meaning uses is the indexed loop the spec writes, through MemRead
and MemWrite, whatever the output buffer held before. -/
def Obligations.BufferLoopIsIndexedLoop : Prop :=
  ∀ (start : U64) (buf out : List Byte) (s : State), out.length = buf.length →
    xorBytes start buf s = xorBufIndexed start buf buf.length 0 out s

/-- R96: XOR_BUF is the sequence of XOR_BYTE commands at the successive offsets. -/
def Obligations.XorBufEqualsXorByteSequence : Prop :=
  ∀ (start : U64) (buf : List Byte) (s : State), s.initDone = true → start.toNat + buf.length ≤ 2 ^ 64 →
    ∃ (out : List Byte) (u t : State), xorByteSequence start buf s = some (out, u) ∧
      exec (.xorBuf start buf) s = .next t ∧ t.respData = out ∧ t.S = u.S ∧ t.KS = u.KS ∧ t.LBI = u.LBI ∧
      t.status = 0x00 ∧ (buf ≠ [] → u.status = 0x00) ∧ (buf = [] → u.status = s.status)

/-- R97, R100: in every state of a session, what XOR_BYTE and XOR_BUF answer is the input XORed with the session's
keystream at its offset, whatever ran since INIT. -/
def Obligations.CacheIsInvisible : Prop :=
  ∀ s : State, s.CacheInv → s.initDone = true →
    (∀ (off : U64) (x : Byte), ∃ t, exec (.xorByte off x) s = .next t ∧ t.status = 0x00 ∧
      t.respData = [x ^^^ keystream s.params s.keyReg s.nonceReg off]) ∧
    (∀ (start : U64) (buf : List Byte), start.toNat + buf.length ≤ 2 ^ 64 →
      ∃ t, exec (.xorBuf start buf) s = .next t ∧ t.status = 0x00 ∧ t.respData.length = buf.length ∧
        ∀ i, i < buf.length → t.respData[i]? =
          buf[i]?.map (fun x => x ^^^ keystream s.params s.keyReg s.nonceReg (start + BitVec.ofNat 64 i)))

/-- R98: two instances in sessions with the same key, nonce and parameters decrypt each other's output and answer the
same bytes at every offset. -/
def Obligations.SessionsDecryptEachOther : Prop :=
  ∀ (s1 s2 : State), s1.CacheInv → s2.CacheInv → s1.initDone = true → s2.initDone = true →
    s1.params = s2.params → s1.keyReg = s2.keyReg → s1.nonceReg = s2.nonceReg →
    (∀ (start : U64) (buf : List Byte), start.toNat + buf.length ≤ 2 ^ 64 →
      ∃ t1 t2 u, exec (.xorBuf start buf) s1 = .next t1 ∧ exec (.xorBuf start buf) s2 = .next t2 ∧
        t1.respData = t2.respData ∧ exec (.xorBuf start t1.respData) s2 = .next u ∧ u.respData = buf) ∧
    (∀ (off : U64) (x : Byte),
      ∃ t1 t2 y u, exec (.xorByte off x) s1 = .next t1 ∧ exec (.xorByte off x) s2 = .next t2 ∧
        t1.respData = [y] ∧ t2.respData = [y] ∧ exec (.xorByte off y) s2 = .next u ∧ u.respData = [x])

/-- R99: a successful XOR_BUF regenerates the blocks it touches, each once and in increasing order, but for the first
when it is the cached one. -/
def Obligations.EachTouchedBlockRegeneratedOnce : Prop :=
  ∀ (start : U64) (buf : List Byte) (s : State), buf ≠ [] → start.toNat + buf.length ≤ 2 ^ 64 →
    let first := start.toNat / 64
    let last := (start.toNat + buf.length - 1) / 64
    let missed := missedBlocks s.LBI start buf.length
    (xorBytes start buf s).2 = missed.foldl (fun u b => u.regen b) s ∧
    missed.map BitVec.toNat
      = List.range' (if first = s.LBI.toNat then first + 1 else first)
          (last - first + 1 - (if first = s.LBI.toNat then 1 else 0))

/-- R62, R100: the KEYSTREAM pseudo-command answers the raw keystream bytes of its range. -/
def Obligations.KeystreamPseudoReadsKeystream : Prop :=
  ∀ (start : U64) (n : Nat) (s : State), s.CacheInv → s.initDone = true → start.toNat + n ≤ 2 ^ 64 →
    ∃ t, exec (Pseudo.keystream start n).expand s = .next t ∧ t.respData.length = n ∧
      ∀ i, i < n → t.respData[i]?
        = some (keystream s.params s.keyReg s.nonceReg (start + BitVec.ofNat 64 i))

/-! ### Whole-machine rules -/

/-- 10_state.md R15, R16, R23: no command but INIT writes N0, KEYREG, NONCEREG, INIT_DONE or a state word other than 10
and 11, and no command at all writes the parameters or the interface fields. -/
def Obligations.OnlyInitWritesSessionRegisters : Prop :=
  ∀ (i : Instr) (s t : State), exec i s = .next t →
    (i.opcode ≠ .init → t.N0 = s.N0 ∧ t.keyReg = s.keyReg ∧ t.nonceReg = s.nonceReg ∧ t.initDone = s.initDone ∧
      ∀ j : Fin 16, j ≠ 10 → j ≠ 11 → t.S[j] = s.S[j]) ∧
    t.params = s.params ∧ t.hosts = s.hosts ∧ t.resetLine = s.resetLine ∧ t.accepted = s.accepted ∧
    t.resets = s.resets

/-- The cache invariant of R27 and a legal STATUS hold at reset. -/
def Obligations.InvariantHoldsAtReset : Prop := State.reset.Inv

/-- Every step keeps the cache invariant of R27 and a legal STATUS, from every state that has them. -/
def Obligations.InvariantIsKept : Prop :=
  ∀ s s' : State, s.Inv → step s = .next s' → s'.Inv

/-- 60_exceptions.md R105, 70_reset_and_hazards.md R116: the unspecified reset contents can never be observed. Two
states that differ only in them, before the first INIT, stay so, with equal responses, and become equal at INIT. Both make
their steps under the same draws, taken at equal counters: DESIGN CHOICE, log entries 4 and 14. -/
def Obligations.ResetContentsAreUnobservable : Prop :=
  ∀ s t : State, SameView s t →
    ∃ s' t', step s = .next s' ∧ step t = .next t' ∧ SameView s' t' ∧ s'.hosts = t'.hosts

/-- 10_state.md R22, R26: no command reads KEYREG or NONCEREG back. Two states that differ only in them stay so, with
equal responses. Both make their steps under the same draws of the scheduler and of reset contents, taken at equal
counters: DESIGN CHOICE, log entries 4, 5 and 14. -/
def Obligations.KeyCopiesAreUnobservable : Prop :=
  ∀ s t : State, SameButKeyCopies s t →
    ∃ s' t', step s = .next s' ∧ step t = .next t' ∧ SameButKeyCopies s' t' ∧ s'.hosts = t'.hosts

/-- 20_memory.md R44, 70_reset_and_hazards.md R122: however the hosts' commands interleave, a host's XOR_BYTE in a
session is answered with the session's keystream byte at its offset. -/
def Obligations.XorAnswerUnderAnyInterleaving : Prop :=
  ∀ (s : State) (h : Nat) (p : HostPort) (rest : List Transaction) (off : U64) (x : Byte),
    s.CacheInv → s.initDone = true → s.resetLine = false → s.nextHost = some h → s.hosts[h]? = some p →
    p.script = encode (.xorByte off x) :: rest →
    ∃ s', step s = .next s' ∧ s'.hosts[h]?
      = some ⟨rest, p.received ++ [⟨0x00, [x ^^^ keystream s.params s.keyReg s.nonceReg off]⟩]⟩

/-- 10_state.md R30, 60_exceptions.md R113: a step of one instance is its own step and leaves every other instance
alone. -/
def Obligations.InstancesAreIndependent : Prop :=
  ∀ (k : Nat) (p : Platform) (s : State), p[k]? = some s →
    ∃ s' p', step s = .next s' ∧ p.stepAt k = .next p' ∧ p'.length = p.length ∧ p'[k]? = some s' ∧
      ∀ j, j ≠ k → p'[j]? = p[j]?
end

