-- ==== Sys2Proof/Laws/Operands.lean ====
section
/-! SUPPORT. The byte conversions and the offset split: their small lemmas. -/

namespace Sys2Proof.Machine

open Sys2Proof

@[simp] theorem leBytes_length (n v : Nat) : (leBytes n v).length = n := by
  induction n generalizing v with
  | zero => rfl
  | succ n ih => simp [leBytes, ih]

theorem leNat_lt (bs : List Byte) : leNat bs < 256 ^ bs.length := by
  induction bs with
  | nil => simp [leNat]
  | cons b bs ih =>
    have := b.isLt
    simp only [leNat, List.length_cons, Nat.pow_succ]
    omega

theorem leNat_leBytes (n v : Nat) : leNat (leBytes n v) = v % 256 ^ n := by
  induction n generalizing v with
  | zero => simp [leNat, leBytes, Nat.mod_one]
  | succ n ih =>
    simp only [leNat, leBytes, ih, BitVec.toNat_ofNat]
    rw [show (256 : Nat) ^ (n + 1) = 256 * 256 ^ n by rw [Nat.pow_succ, Nat.mul_comm], Nat.mod_mul]

theorem leBytes_leNat (bs : List Byte) : leBytes bs.length (leNat bs) = bs := by
  induction bs with
  | nil => rfl
  | cons b bs ih =>
    have hb := b.isLt
    have h1 : (b.toNat + 256 * leNat bs) / 256 = leNat bs := by omega
    have h2 : BitVec.ofNat 8 (b.toNat + 256 * leNat bs) = b := by
      apply BitVec.eq_of_toNat_eq
      simp only [BitVec.toNat_ofNat]
      omega
    simp only [List.length_cons, leBytes, leNat, h1, h2, ih]

@[simp] theorem bytesOfU64_length (v : U64) : (bytesOfU64 v).length = 8 := leBytes_length 8 _

/-- A u64 operand survives its wire form (20_memory.md R37). -/
@[simp] theorem u64OfBytes_bytesOfU64 (v : U64) : u64OfBytes (bytesOfU64 v) = v := by
  apply BitVec.eq_of_toNat_eq
  have := v.isLt
  simp only [u64OfBytes, bytesOfU64, leNat_leBytes, BitVec.toNat_ofNat]
  omega

/-- Eight bytes survive as a u64 operand (R37). -/
theorem bytesOfU64_u64OfBytes {bs : List Byte} (h : bs.length = 8) : bytesOfU64 (u64OfBytes bs) = bs := by
  have hlt := leNat_lt bs
  rw [h] at hlt
  have hmod : leNat bs % 2 ^ 64 = leNat bs := Nat.mod_eq_of_lt (by omega)
  have := leBytes_leNat bs
  rw [h] at this
  simp only [u64OfBytes, bytesOfU64, BitVec.toNat_ofNat, hmod, this]

theorem leBytes_getElem? {n j : Nat} (v : Nat) (h : j < n) :
    (leBytes n v)[j]? = some (BitVec.ofNat 8 (v / 256 ^ j)) := by
  induction n generalizing v j with
  | zero => omega
  | succ n ih =>
    cases j with
    | zero => simp [leBytes]
    | succ j =>
      simp only [leBytes, List.getElem?_cons_succ, ih (v / 256) (by omega : j < n), Nat.div_div_eq_div_mul,
        Nat.pow_succ, Nat.mul_comm]

/-- The block of an offset as a number: `floor(off / 64)` (41_block_index_update.md R69). -/
theorem blkOf_toNat (off : U64) : (blkOf off).toNat = off.toNat / 64 := by
  simp [blkOf, Nat.shiftRight_eq_div_pow]

@[simp] theorem posOf_val (off : U64) : (posOf off).val = off.toNat % 64 := rfl

end Sys2Proof.Machine
end

