-- ==== Sys2Proof/Laws/Decode.lean ====
section
/-! SUPPORT. The fields of a command word as numbers, what the word decoder answers, and the u64 fields byte by byte. -/

namespace Sys2Proof

open Sys2Proof.Machine

/-- The byte fields of a command word as numbers. -/
theorem word_fields (w : Word) :
    (w.extractLsb' 0 8).toNat = w.toNat % 256 ∧ (w.extractLsb' 8 8).toNat = w.toNat / 256 % 256 ∧
    (w.extractLsb' 16 8).toNat = w.toNat / 65536 % 256 ∧ (w.extractLsb' 24 8).toNat = w.toNat / 16777216 ∧
    (w.extractLsb' 8 24).toNat = w.toNat / 256 ∧ (w.extractLsb' 0 16).toNat = w.toNat % 65536 := by
  have := w.isLt
  refine ⟨?_, ?_, ?_, ?_, ?_, ?_⟩ <;>
    simp only [BitVec.extractLsb'_toNat, Nat.shiftRight_eq_div_pow] <;> omega

theorem klenOf_eq (w : Word) : klenOf w = w.toNat / 65536 % 256 := (word_fields w).2.2.1

theorem nlenOf_eq (w : Word) : nlenOf w = w.toNat / 16777216 := (word_fields w).2.2.2.1

/-- A bit vector equals a literal exactly when its number does. -/
theorem eq_ofNat_iff {k : Nat} (x : BitVec k) {n : Nat} (h : n < 2 ^ k) : x = BitVec.ofNat k n ↔ x.toNat = n := by
  rw [BitVec.toNat_eq, BitVec.toNat_ofNat, Nat.mod_eq_of_lt h]

/-- Everything `decodeWord` can answer, by the word's number (30_encoding.md R47 to R49, R57). -/
theorem decodeWord_eq (w : Word) : decodeWord w =
    if w.toNat % 65536 = 1 then some .init
    else if w.toNat = 2 then some .gen
    else if w.toNat = 3 then some .genNext
    else if w.toNat = 4 then some .advance
    else if w.toNat = 5 then some .xorByte
    else if w.toNat = 6 then some .xorBuf
    else none := by
  have all : ∀ v : Word, v &&& 0xFFFFFFFF = v := fun v => BitVec.and_allOnes
  have low : w &&& 0xFFFF = 1 ↔ w.toNat % 65536 = 1 := by
    rw [BitVec.toNat_eq, BitVec.toNat_and]
    exact Eq.congr (Nat.and_two_pow_sub_one_eq_mod w.toNat 16) rfl
  have full : ∀ {n}, n < 2 ^ 32 → (w = BitVec.ofNat 32 n ↔ w.toNat = n) := fun h => eq_ofNat_iff w h
  simp only [decodeWord, opcodeTable, List.find?, all]
  simp only [← low, ← full (n := 2) (by decide), ← full (n := 3) (by decide), ← full (n := 4) (by decide),
    ← full (n := 5) (by decide), ← full (n := 6) (by decide)]
  repeat' split
  all_goals simp_all

/-- The INIT word's number: opcode, then KLEN, then NLEN (R48). -/
theorem encodeWord_init_toNat {key nonce : List Byte} (hk : key.length ≤ 255) (hn : nonce.length ≤ 255) :
    (encodeWord (.init key nonce)).toNat = 1 + key.length * 65536 + nonce.length * 16777216 := by
  show (1#32 ||| (BitVec.ofNat 32 key.length <<< 16) ||| (BitVec.ofNat 32 nonce.length <<< 24)).toNat = _
  simp only [BitVec.toNat_or, BitVec.toNat_shiftLeft, BitVec.toNat_ofNat]
  generalize key.length = a at *
  generalize nonce.length = b at *
  rw [Nat.mod_eq_of_lt (show 1 < 2 ^ 32 by decide), Nat.mod_eq_of_lt (show a < 2 ^ 32 by omega),
    Nat.mod_eq_of_lt (show b < 2 ^ 32 by omega), Nat.shiftLeft_eq, Nat.shiftLeft_eq,
    Nat.mod_eq_of_lt (show a * 2 ^ 16 < 2 ^ 32 by omega), Nat.mod_eq_of_lt (show b * 2 ^ 24 < 2 ^ 32 by omega)]
  have low : 1 ||| a * 2 ^ 16 = a * 2 ^ 16 + 1 := by
    rw [Nat.or_comm, Nat.mul_comm]
    exact (Nat.two_pow_add_eq_or_of_lt (show 1 < 2 ^ 16 by decide) a).symm
  rw [low, Nat.or_comm, Nat.mul_comm b, ← Nat.two_pow_add_eq_or_of_lt (show a * 2 ^ 16 + 1 < 2 ^ 24 by omega) b]
  omega

/-! ### u64 fields byte by byte (30_encoding.md R51) -/

theorem bytesOfU64_getElem? (v : U64) {j : Nat} (h : j < 8) :
    (bytesOfU64 v)[j]? = some (v.extractLsb' (8 * j) 8) := by
  rw [bytesOfU64, leBytes_getElem? _ h]
  congr 1
  apply BitVec.eq_of_toNat_eq
  simp [BitVec.extractLsb'_toNat, Nat.shiftRight_eq_div_pow, Nat.pow_mul]

/-- Eight bytes that are the bytes of `v` are read as `v`. -/
theorem u64OfBytes_eq {p : List Byte} {v : U64} (h : p.length = 8)
    (hv : ∀ j, j < 8 → p[j]? = some (v.extractLsb' (8 * j) 8)) : u64OfBytes p = v := by
  have : p = bytesOfU64 v := by
    apply List.ext_getElem?
    intro j
    by_cases hj : j < 8
    · rw [hv j hj, bytesOfU64_getElem? v hj]
    · rw [List.getElem?_eq_none (by omega), List.getElem?_eq_none (by simp; omega)]
  rw [this, u64OfBytes_bytesOfU64]

end Sys2Proof
end

