-- ==== Sys2Proof/Laws/State.lean ====
section
/-! SUPPORT. One lemma per field per state update, each true by rfl. -/

namespace Sys2Proof.Machine

open Sys2Proof

/-! ### setBlock -/

@[simp] theorem State.setBlock_S (b : U64) (s : State) : (s.setBlock b).S = injectBlock s.N0 b s.S := rfl
@[simp] theorem State.setBlock_N0 (b : U64) (s : State) : (s.setBlock b).N0 = s.N0 := rfl
@[simp] theorem State.setBlock_KS (b : U64) (s : State) : (s.setBlock b).KS = s.KS := rfl
@[simp] theorem State.setBlock_LBI (b : U64) (s : State) : (s.setBlock b).LBI = s.LBI := rfl
@[simp] theorem State.setBlock_initDone (b : U64) (s : State) : (s.setBlock b).initDone = s.initDone := rfl
@[simp] theorem State.setBlock_status (b : U64) (s : State) : (s.setBlock b).status = s.status := rfl
@[simp] theorem State.setBlock_keyReg (b : U64) (s : State) : (s.setBlock b).keyReg = s.keyReg := rfl
@[simp] theorem State.setBlock_nonceReg (b : U64) (s : State) : (s.setBlock b).nonceReg = s.nonceReg := rfl
@[simp] theorem State.setBlock_params (b : U64) (s : State) : (s.setBlock b).params = s.params := rfl
@[simp] theorem State.setBlock_respData (b : U64) (s : State) : (s.setBlock b).respData = s.respData := rfl
@[simp] theorem State.setBlock_hosts (b : U64) (s : State) : (s.setBlock b).hosts = s.hosts := rfl
@[simp] theorem State.setBlock_resetLine (b : U64) (s : State) : (s.setBlock b).resetLine = s.resetLine := rfl
@[simp] theorem State.setBlock_accepted (b : U64) (s : State) : (s.setBlock b).accepted = s.accepted := rfl
@[simp] theorem State.setBlock_resets (b : U64) (s : State) : (s.setBlock b).resets = s.resets := rfl

/-! ### regen -/

@[simp] theorem State.regen_S (b : U64) (s : State) : (s.regen b).S = injectBlock s.N0 b s.S := rfl
@[simp] theorem State.regen_N0 (b : U64) (s : State) : (s.regen b).N0 = s.N0 := rfl
@[simp] theorem State.regen_KS (b : U64) (s : State) : (s.regen b).KS = perm s.params (injectBlock s.N0 b s.S) := rfl
@[simp] theorem State.regen_LBI (b : U64) (s : State) : (s.regen b).LBI = b := rfl
@[simp] theorem State.regen_initDone (b : U64) (s : State) : (s.regen b).initDone = s.initDone := rfl
@[simp] theorem State.regen_status (b : U64) (s : State) : (s.regen b).status = s.status := rfl
@[simp] theorem State.regen_keyReg (b : U64) (s : State) : (s.regen b).keyReg = s.keyReg := rfl
@[simp] theorem State.regen_nonceReg (b : U64) (s : State) : (s.regen b).nonceReg = s.nonceReg := rfl
@[simp] theorem State.regen_params (b : U64) (s : State) : (s.regen b).params = s.params := rfl
@[simp] theorem State.regen_respData (b : U64) (s : State) : (s.regen b).respData = s.respData := rfl
@[simp] theorem State.regen_hosts (b : U64) (s : State) : (s.regen b).hosts = s.hosts := rfl
@[simp] theorem State.regen_resetLine (b : U64) (s : State) : (s.regen b).resetLine = s.resetLine := rfl
@[simp] theorem State.regen_accepted (b : U64) (s : State) : (s.regen b).accepted = s.accepted := rfl
@[simp] theorem State.regen_resets (b : U64) (s : State) : (s.regen b).resets = s.resets := rfl

/-! ### respond -/

@[simp] theorem State.respond_S (data : List Byte) (s : State) : (s.respond data).S = s.S := rfl
@[simp] theorem State.respond_N0 (data : List Byte) (s : State) : (s.respond data).N0 = s.N0 := rfl
@[simp] theorem State.respond_KS (data : List Byte) (s : State) : (s.respond data).KS = s.KS := rfl
@[simp] theorem State.respond_LBI (data : List Byte) (s : State) : (s.respond data).LBI = s.LBI := rfl
@[simp] theorem State.respond_initDone (data : List Byte) (s : State) : (s.respond data).initDone = s.initDone := rfl
@[simp] theorem State.respond_status (data : List Byte) (s : State) :
    (s.respond data).status = StatusCode.ok.code := rfl
@[simp] theorem State.respond_keyReg (data : List Byte) (s : State) : (s.respond data).keyReg = s.keyReg := rfl
@[simp] theorem State.respond_nonceReg (data : List Byte) (s : State) : (s.respond data).nonceReg = s.nonceReg := rfl
@[simp] theorem State.respond_params (data : List Byte) (s : State) : (s.respond data).params = s.params := rfl
@[simp] theorem State.respond_respData (data : List Byte) (s : State) : (s.respond data).respData = data := rfl
@[simp] theorem State.respond_hosts (data : List Byte) (s : State) : (s.respond data).hosts = s.hosts := rfl
@[simp] theorem State.respond_resetLine (data : List Byte) (s : State) : (s.respond data).resetLine = s.resetLine := rfl
@[simp] theorem State.respond_accepted (data : List Byte) (s : State) : (s.respond data).accepted = s.accepted := rfl
@[simp] theorem State.respond_resets (data : List Byte) (s : State) : (s.respond data).resets = s.resets := rfl

/-! ### raise -/

@[simp] theorem State.raise_S (e : StatusCode) (s : State) : (s.raise e).S = s.S := rfl
@[simp] theorem State.raise_N0 (e : StatusCode) (s : State) : (s.raise e).N0 = s.N0 := rfl
@[simp] theorem State.raise_KS (e : StatusCode) (s : State) : (s.raise e).KS = s.KS := rfl
@[simp] theorem State.raise_LBI (e : StatusCode) (s : State) : (s.raise e).LBI = s.LBI := rfl
@[simp] theorem State.raise_initDone (e : StatusCode) (s : State) : (s.raise e).initDone = s.initDone := rfl
@[simp] theorem State.raise_status (e : StatusCode) (s : State) : (s.raise e).status = e.code := rfl
@[simp] theorem State.raise_keyReg (e : StatusCode) (s : State) : (s.raise e).keyReg = s.keyReg := rfl
@[simp] theorem State.raise_nonceReg (e : StatusCode) (s : State) : (s.raise e).nonceReg = s.nonceReg := rfl
@[simp] theorem State.raise_params (e : StatusCode) (s : State) : (s.raise e).params = s.params := rfl
@[simp] theorem State.raise_respData (e : StatusCode) (s : State) : (s.raise e).respData = [] := rfl
@[simp] theorem State.raise_hosts (e : StatusCode) (s : State) : (s.raise e).hosts = s.hosts := rfl
@[simp] theorem State.raise_resetLine (e : StatusCode) (s : State) : (s.raise e).resetLine = s.resetLine := rfl
@[simp] theorem State.raise_accepted (e : StatusCode) (s : State) : (s.raise e).accepted = s.accepted := rfl
@[simp] theorem State.raise_resets (e : StatusCode) (s : State) : (s.raise e).resets = s.resets := rfl

/-! ### accept -/

@[simp] theorem State.accept_S (h : Nat) (s : State) : (s.accept h).S = s.S := rfl
@[simp] theorem State.accept_N0 (h : Nat) (s : State) : (s.accept h).N0 = s.N0 := rfl
@[simp] theorem State.accept_KS (h : Nat) (s : State) : (s.accept h).KS = s.KS := rfl
@[simp] theorem State.accept_LBI (h : Nat) (s : State) : (s.accept h).LBI = s.LBI := rfl
@[simp] theorem State.accept_initDone (h : Nat) (s : State) : (s.accept h).initDone = s.initDone := rfl
@[simp] theorem State.accept_status (h : Nat) (s : State) : (s.accept h).status = s.status := rfl
@[simp] theorem State.accept_keyReg (h : Nat) (s : State) : (s.accept h).keyReg = s.keyReg := rfl
@[simp] theorem State.accept_nonceReg (h : Nat) (s : State) : (s.accept h).nonceReg = s.nonceReg := rfl
@[simp] theorem State.accept_params (h : Nat) (s : State) : (s.accept h).params = s.params := rfl
@[simp] theorem State.accept_respData (h : Nat) (s : State) : (s.accept h).respData = s.respData := rfl
@[simp] theorem State.accept_hosts (h : Nat) (s : State) :
    (s.accept h).hosts = s.hosts.modify h fun p => { p with script := p.script.tail } := rfl
@[simp] theorem State.accept_resetLine (h : Nat) (s : State) : (s.accept h).resetLine = s.resetLine := rfl
@[simp] theorem State.accept_accepted (h : Nat) (s : State) : (s.accept h).accepted = s.accepted + 1 := rfl
@[simp] theorem State.accept_resets (h : Nat) (s : State) : (s.accept h).resets = s.resets := rfl

/-! ### deliver -/

@[simp] theorem State.deliver_S (h : Nat) (s : State) : (s.deliver h).S = s.S := rfl
@[simp] theorem State.deliver_N0 (h : Nat) (s : State) : (s.deliver h).N0 = s.N0 := rfl
@[simp] theorem State.deliver_KS (h : Nat) (s : State) : (s.deliver h).KS = s.KS := rfl
@[simp] theorem State.deliver_LBI (h : Nat) (s : State) : (s.deliver h).LBI = s.LBI := rfl
@[simp] theorem State.deliver_initDone (h : Nat) (s : State) : (s.deliver h).initDone = s.initDone := rfl
@[simp] theorem State.deliver_status (h : Nat) (s : State) : (s.deliver h).status = s.status := rfl
@[simp] theorem State.deliver_keyReg (h : Nat) (s : State) : (s.deliver h).keyReg = s.keyReg := rfl
@[simp] theorem State.deliver_nonceReg (h : Nat) (s : State) : (s.deliver h).nonceReg = s.nonceReg := rfl
@[simp] theorem State.deliver_params (h : Nat) (s : State) : (s.deliver h).params = s.params := rfl
@[simp] theorem State.deliver_respData (h : Nat) (s : State) : (s.deliver h).respData = s.respData := rfl
@[simp] theorem State.deliver_hosts (h : Nat) (s : State) :
    (s.deliver h).hosts = s.hosts.modify h fun p => { p with received := p.received ++ [s.response] } := rfl
@[simp] theorem State.deliver_resetLine (h : Nat) (s : State) : (s.deliver h).resetLine = s.resetLine := rfl
@[simp] theorem State.deliver_accepted (h : Nat) (s : State) : (s.deliver h).accepted = s.accepted := rfl
@[simp] theorem State.deliver_resets (h : Nat) (s : State) : (s.deliver h).resets = s.resets := rfl

/-! ### resetEvent -/

@[simp] theorem State.resetEvent_S (s : State) : (s.resetEvent).S = Config.resetS s.resets := rfl
@[simp] theorem State.resetEvent_N0 (s : State) : (s.resetEvent).N0 = Config.resetN0 s.resets := rfl
@[simp] theorem State.resetEvent_KS (s : State) : (s.resetEvent).KS = Config.resetKS s.resets := rfl
@[simp] theorem State.resetEvent_LBI (s : State) : (s.resetEvent).LBI = Config.resetLBI s.resets := rfl
@[simp] theorem State.resetEvent_initDone (s : State) : (s.resetEvent).initDone = false := rfl
@[simp] theorem State.resetEvent_status (s : State) : (s.resetEvent).status = StatusCode.ok.code := rfl
@[simp] theorem State.resetEvent_keyReg (s : State) : (s.resetEvent).keyReg = Config.resetKey s.resets := rfl
@[simp] theorem State.resetEvent_nonceReg (s : State) : (s.resetEvent).nonceReg = Config.resetNonce s.resets := rfl
@[simp] theorem State.resetEvent_params (s : State) : (s.resetEvent).params = s.params := rfl
@[simp] theorem State.resetEvent_respData (s : State) : (s.resetEvent).respData = [] := rfl
@[simp] theorem State.resetEvent_hosts (s : State) :
    (s.resetEvent).hosts = s.hosts.map fun p => { p with script := [] } := rfl
@[simp] theorem State.resetEvent_resetLine (s : State) : (s.resetEvent).resetLine = false := rfl
@[simp] theorem State.resetEvent_accepted (s : State) : (s.resetEvent).accepted = s.accepted := rfl
@[simp] theorem State.resetEvent_resets (s : State) : (s.resetEvent).resets = s.resets + 1 := rfl

/-! ### startSession -/

@[simp] theorem State.startSession_S (key : Key) (nonce : Nonce) (s : State) :
    (s.startSession key nonce).S = injectBlock (nonceWord nonce 0) 0 (initState key nonce) := rfl
@[simp] theorem State.startSession_N0 (key : Key) (nonce : Nonce) (s : State) :
    (s.startSession key nonce).N0 = nonceWord nonce 0 := rfl
@[simp] theorem State.startSession_KS (key : Key) (nonce : Nonce) (s : State) :
    (s.startSession key nonce).KS = perm s.params (injectBlock (nonceWord nonce 0) 0 (initState key nonce)) := rfl
@[simp] theorem State.startSession_LBI (key : Key) (nonce : Nonce) (s : State) :
    (s.startSession key nonce).LBI = 0 := rfl
@[simp] theorem State.startSession_initDone (key : Key) (nonce : Nonce) (s : State) :
    (s.startSession key nonce).initDone = true := rfl
@[simp] theorem State.startSession_status (key : Key) (nonce : Nonce) (s : State) :
    (s.startSession key nonce).status = s.status := rfl
@[simp] theorem State.startSession_keyReg (key : Key) (nonce : Nonce) (s : State) :
    (s.startSession key nonce).keyReg = key := rfl
@[simp] theorem State.startSession_nonceReg (key : Key) (nonce : Nonce) (s : State) :
    (s.startSession key nonce).nonceReg = nonce := rfl
@[simp] theorem State.startSession_params (key : Key) (nonce : Nonce) (s : State) :
    (s.startSession key nonce).params = s.params := rfl
@[simp] theorem State.startSession_respData (key : Key) (nonce : Nonce) (s : State) :
    (s.startSession key nonce).respData = s.respData := rfl
@[simp] theorem State.startSession_hosts (key : Key) (nonce : Nonce) (s : State) :
    (s.startSession key nonce).hosts = s.hosts := rfl
@[simp] theorem State.startSession_resetLine (key : Key) (nonce : Nonce) (s : State) :
    (s.startSession key nonce).resetLine = s.resetLine := rfl
@[simp] theorem State.startSession_accepted (key : Key) (nonce : Nonce) (s : State) :
    (s.startSession key nonce).accepted = s.accepted := rfl
@[simp] theorem State.startSession_resets (key : Key) (nonce : Nonce) (s : State) :
    (s.startSession key nonce).resets = s.resets := rfl

/-! ### withScript -/

@[simp] theorem State.withScript_S (ts : List Transaction) (s : State) : (s.withScript ts).S = s.S := rfl
@[simp] theorem State.withScript_N0 (ts : List Transaction) (s : State) : (s.withScript ts).N0 = s.N0 := rfl
@[simp] theorem State.withScript_KS (ts : List Transaction) (s : State) : (s.withScript ts).KS = s.KS := rfl
@[simp] theorem State.withScript_LBI (ts : List Transaction) (s : State) : (s.withScript ts).LBI = s.LBI := rfl
@[simp] theorem State.withScript_initDone (ts : List Transaction) (s : State) :
    (s.withScript ts).initDone = s.initDone := rfl
@[simp] theorem State.withScript_status (ts : List Transaction) (s : State) : (s.withScript ts).status = s.status := rfl
@[simp] theorem State.withScript_keyReg (ts : List Transaction) (s : State) : (s.withScript ts).keyReg = s.keyReg := rfl
@[simp] theorem State.withScript_nonceReg (ts : List Transaction) (s : State) :
    (s.withScript ts).nonceReg = s.nonceReg := rfl
@[simp] theorem State.withScript_params (ts : List Transaction) (s : State) : (s.withScript ts).params = s.params := rfl
@[simp] theorem State.withScript_respData (ts : List Transaction) (s : State) :
    (s.withScript ts).respData = s.respData := rfl
@[simp] theorem State.withScript_hosts (ts : List Transaction) (s : State) : (s.withScript ts).hosts = [⟨ts, []⟩] := rfl
@[simp] theorem State.withScript_resetLine (ts : List Transaction) (s : State) :
    (s.withScript ts).resetLine = s.resetLine := rfl
@[simp] theorem State.withScript_accepted (ts : List Transaction) (s : State) :
    (s.withScript ts).accepted = s.accepted := rfl
@[simp] theorem State.withScript_resets (ts : List Transaction) (s : State) : (s.withScript ts).resets = s.resets := rfl

end Sys2Proof.Machine
end

