-- ==== Sys2Proof/Laws/Ops.lean ====
section
/-! SUPPORT. The shared operations: what each can do, said once. -/

namespace Sys2Proof.Machine

open Sys2Proof

/-! ### Counter injection -/

@[simp] theorem injectBlock_low (n0 : Word) (b : U64) (S : Words) : (injectBlock n0 b S)[10] = lo32 b := by
  simp [injectBlock]

@[simp] theorem injectBlock_high (n0 : Word) (b : U64) (S : Words) :
    (injectBlock n0 b S)[11] = n0 ^^^ hi32 b := by
  simp [injectBlock]

theorem injectBlock_other (n0 : Word) (b : U64) (S : Words) (i : Fin 16) (h10 : i ≠ 10) (h11 : i ≠ 11) :
    (injectBlock n0 b S)[i] = S[i] := by
  have h1 : (10 : Nat) ≠ i.val := fun h => h10 (Fin.ext h.symm)
  have h2 : (11 : Nat) ≠ i.val := fun h => h11 (Fin.ext h.symm)
  simp [injectBlock, h1, h2]

/-- The old words 10 and 11 do not matter: injection does not depend on which block was injected before (R67). -/
@[simp] theorem injectBlock_injectBlock (n0 n1 : Word) (b c : U64) (S : Words) :
    injectBlock n0 b (injectBlock n1 c S) = injectBlock n0 b S := by
  ext i hi
  simp only [injectBlock, Vector.getElem_set]
  split <;> [rfl; split <;> rfl]

/-- A state whose words agree outside 10 and 11 and that already holds block `b` is the injection of `b`. -/
theorem eq_injectBlock {n0 : Word} {b : U64} {S T : Words} (h10 : S[10] = lo32 b) (h11 : S[11] = n0 ^^^ hi32 b)
    (h : ∀ i : Fin 16, i ≠ 10 → i ≠ 11 → S[i] = T[i]) : S = injectBlock n0 b T := by
  apply Vector.ext
  intro i hi
  simp only [injectBlock, Vector.getElem_set]
  split
  · next e => subst e; exact h11
  · split
    · next e => subst e; exact h10
    · next h1 h2 =>
      exact h ⟨i, hi⟩ (fun e => h2 (Fin.val_eq_of_eq e).symm) (fun e => h1 (Fin.val_eq_of_eq e).symm)

/-! ### The one-block cache -/

/-- What `touch` can do: keep the state on a hit, regenerate on a miss (44_byte_xor.md R94). -/
theorem State.touch_cases (blk : U64) (s : State) :
    (blk = s.LBI ∧ s.touch blk = s) ∨ (blk ≠ s.LBI ∧ s.touch blk = s.regen blk) := by
  unfold State.touch
  split <;> simp_all

@[simp] theorem State.touch_LBI (blk : U64) (s : State) : (s.touch blk).LBI = blk := by
  obtain ⟨h, e⟩ | ⟨h, e⟩ := s.touch_cases blk
  · rw [e, h]
  · rw [e, State.regen_LBI]

/-- `touch` writes S, KS and LBI only. -/
theorem State.touch_frame (blk : U64) (s : State) :
    s.touch blk = { s with S := (s.touch blk).S, KS := (s.touch blk).KS, LBI := blk } := by
  obtain ⟨h, e⟩ | ⟨h, e⟩ := s.touch_cases blk
  · rw [e, h]
  · rw [e]; rfl

@[simp] theorem State.touch_N0 (blk : U64) (s : State) : (s.touch blk).N0 = s.N0 := by rw [s.touch_frame]
@[simp] theorem State.touch_initDone (blk : U64) (s : State) : (s.touch blk).initDone = s.initDone := by
  rw [s.touch_frame]
@[simp] theorem State.touch_params (blk : U64) (s : State) : (s.touch blk).params = s.params := by rw [s.touch_frame]
@[simp] theorem State.touch_keyReg (blk : U64) (s : State) : (s.touch blk).keyReg = s.keyReg := by rw [s.touch_frame]
@[simp] theorem State.touch_nonceReg (blk : U64) (s : State) : (s.touch blk).nonceReg = s.nonceReg := by
  rw [s.touch_frame]

/-! ### Delivering a response -/

@[simp] theorem deliverOutcome_next (h : Nat) (s : State) :
    deliverOutcome h (.next s) = if reservedCode s.status then .fault .reservedStatus else .next (s.deliver h) := rfl

/-- No defined status code is reserved (60_exceptions.md R101). -/
@[simp] theorem reservedCode_code (e : StatusCode) : reservedCode e.code = false := by cases e <;> decide

/-- Whatever a delivered outcome's next state is, it is the delivery of a legal next state. -/
theorem deliverOutcome_eq_next {h : Nat} {o : Host.Outcome State Fault Refusal} {s' : State}
    (e : deliverOutcome h o = .next s') : ∃ s, o = .next s ∧ reservedCode s.status = false ∧ s' = s.deliver h := by
  cases o with
  | next s =>
    simp only [deliverOutcome] at e
    split at e
    · cases e
    · next hr => exact ⟨s, rfl, by simpa using hr, by cases e; rfl⟩
  | fault r => cases e
  | refused r => cases e

/-! ### Accepting a command -/

/-- A host is ready exactly when its port has a command to offer. -/
theorem State.mem_ready {s : State} {h : Nat} : h ∈ s.ready ↔ ∃ t, s.offered h = some t := by
  simp only [State.ready, List.mem_filter, List.mem_range, State.hasCommand, State.offered]
  cases hp : s.hosts[h]? with
  | none => simp
  | some p =>
    have hlt : h < s.hosts.length := (List.getElem?_eq_some_iff.mp hp).1
    cases hs : p.script with
    | nil => simp [hs]
    | cons t ts => simp [hs, hlt]

/-- The host chosen next is one that has a command to offer, whatever the scheduler draws (20_memory.md R44). -/
theorem State.nextHost_offers {s : State} {h : Nat} (e : s.nextHost = some h) : ∃ t, s.offered h = some t := by
  refine State.mem_ready.mp ?_
  unfold State.nextHost at e
  split at e
  · cases e
  · next h' hr => cases e; simp [hr]
  · next a b cs hr => rw [hr]; exact List.mem_of_getElem? e

/-- No host is chosen exactly when none is ready. -/
theorem State.nextHost_eq_none {s : State} : s.nextHost = none ↔ s.ready = [] := by
  unfold State.nextHost
  split
  · next hr => simp [hr]
  · next hr => simp [hr]
  · next a b cs hr =>
    simp only [hr, reduceCtorEq, iff_false, List.getElem?_eq_none_iff, not_le]
    exact Nat.mod_lt _ (by simp)

end Sys2Proof.Machine
end

