-- ==== Sys2Proof/Laws/PerInstr.lean ====
section
/-! SUPPORT. Statements for all commands, one lemma per constructor of Instr. -/

namespace Sys2Proof.Laws.EncodedWord

open Sys2Proof

/-- The command word of a well-formed command is the one the word decoder reads that command's opcode from
(30_encoding.md R47 to R49). -/
def Statement (i : Instr) : Prop := i.wf = true → decodeWord (encodeWord i) = some i.opcode

theorem init (key nonce : List Byte) : Statement (.init key nonce) := by
  intro h
  simp only [Instr.wf, Bool.and_eq_true, decide_eq_true_eq] at h
  rw [decodeWord_eq, if_pos, Instr.opcode]
  rw [encodeWord_init_toNat h.1 h.2]
  omega

theorem gen (b : U64) : Statement (.gen b) := fun _ => by simp only [encodeWord, Instr.opcode]; decide

theorem genNext : Statement .genNext := fun _ => by decide

theorem advance (b : U64) : Statement (.advance b) := fun _ => by simp only [encodeWord, Instr.opcode]; decide

theorem xorByte (off : U64) (x : Byte) : Statement (.xorByte off x) :=
  fun _ => by simp only [encodeWord, Instr.opcode]; decide

theorem xorBuf (start : U64) (buf : List Byte) : Statement (.xorBuf start buf) :=
  fun _ => by simp only [encodeWord, Instr.opcode]; decide

end Sys2Proof.Laws.EncodedWord
end

