-- ==== Sys2Proof/Laws/Session.lean ====
section
/-! SUPPORT. The session form of the cache invariant, and what the XOR loop can do. -/

namespace Sys2Proof.Machine

open Sys2Proof

/-- The cache invariant with its words named: S and KS are those of the session at block LBI (10_state.md R27,
43_block_generator.md R91). -/
def State.InSession (s : State) : Prop :=
  s.N0 = nonceWord s.nonceReg 0 ∧
  s.S = sessionWords s.keyReg s.nonceReg s.LBI ∧
  s.KS = ksBlock s.params s.keyReg s.nonceReg s.LBI

theorem State.CacheInv.inSession {s : State} (h : s.CacheInv) (hd : s.initDone = true) : s.InSession := by
  obtain ⟨h1, h2, h3, h4, h5⟩ := h hd
  rw [h1] at h3
  have hS : s.S = sessionWords s.keyReg s.nonceReg s.LBI := eq_injectBlock h2 h3 h4
  exact ⟨h1, hS, by rw [h5, hS]; rfl⟩

theorem State.InSession.cacheInv {s : State} (h : s.InSession) : s.CacheInv := by
  obtain ⟨h1, h2, h3⟩ := h
  refine fun _ => ⟨h1, by rw [h2]; simp [sessionWords], by rw [h2, h1]; simp [sessionWords], ?_, by rw [h3, h2]; rfl⟩
  intro i h10 h11
  rw [h2]
  exact injectBlock_other _ _ _ _ h10 h11

theorem State.InSession.regen {s : State} (h : s.InSession) (b : U64) : (s.regen b).InSession := by
  obtain ⟨h1, h2, h3⟩ := h
  exact ⟨by simpa using h1, by simp [h1, h2, sessionWords], by simp [h1, h2, sessionWords, ksBlock]⟩

theorem State.InSession.touch {s : State} (h : s.InSession) (blk : U64) : (s.touch blk).InSession := by
  obtain ⟨-, e⟩ | ⟨-, e⟩ := s.touch_cases blk <;> rw [e]
  · exact h
  · exact h.regen blk

theorem State.inSession_startSession (key : Key) (nonce : Nonce) (s : State) :
    (s.startSession key nonce).InSession :=
  ⟨by simp, by simp [sessionWords], by simp [ksBlock, sessionWords]⟩

theorem State.InSession.xorBytes {s : State} (h : s.InSession) (start : U64) (buf : List Byte) :
    (xorBytes start buf s).2.InSession := by
  induction buf generalizing start s with
  | nil => exact h
  | cons x xs ih => exact ih (h.touch _) _

/-- The loop writes S, KS and LBI only. -/
theorem xorBytes_frame (start : U64) (buf : List Byte) (s : State) :
    (xorBytes start buf s).2 = { s with
      S := (xorBytes start buf s).2.S, KS := (xorBytes start buf s).2.KS, LBI := (xorBytes start buf s).2.LBI } := by
  induction buf generalizing start s with
  | nil => rfl
  | cons x xs ih =>
    simp only [xorBytes, xorAt]
    rw [ih, s.touch_frame]

/-- The loop leaves every state word but 10 and 11 alone. -/
theorem xorBytes_S_other (start : U64) (buf : List Byte) (s : State) (j : Fin 16) (h10 : j ≠ 10) (h11 : j ≠ 11) :
    (xorBytes start buf s).2.S[j] = s.S[j] := by
  induction buf generalizing start s with
  | nil => rfl
  | cons x xs ih =>
    simp only [xorBytes, xorAt]
    rw [ih]
    obtain ⟨-, e⟩ | ⟨-, e⟩ := s.touch_cases (blkOf start) <;> rw [e]
    exact injectBlock_other _ _ _ _ h10 h11

@[simp] theorem xorBytes_length (start : U64) (buf : List Byte) (s : State) :
    (xorBytes start buf s).1.length = buf.length := by
  induction buf generalizing start s with
  | nil => rfl
  | cons x xs ih => simp [xorBytes, ih]

theorem offset_succ (a : U64) (i : Nat) : a + 1 + BitVec.ofNat 64 i = a + BitVec.ofNat 64 (i + 1) := by
  rw [BitVec.add_assoc, BitVec.add_comm 1, BitVec.ofNat_add]
  rfl

/-! ### The launch premise `Exclusive` (70_reset_and_hazards.md R126) -/

/-- When every port but `h` is silent, as `Exclusive` says, only host `h` can be ready. -/
theorem State.ready_of_others_silent {s : State} {h : Nat} (e : ∀ k p, s.hosts[k]? = some p → k ≠ h → p.script = []) :
    ∀ k ∈ s.ready, k = h := by
  intro k hk
  obtain ⟨t, ht⟩ := State.mem_ready.mp hk
  by_contra hne
  cases hp : s.hosts[k]? with
  | none => simp [State.offered, hp] at ht
  | some p => simp [State.offered, hp, e k p hp hne] at ht

/-- A launch with one script is exclusive, and so is a state in which one command was placed for the next step. -/
theorem State.withScript_exclusive (ts : List Transaction) (s : State) : (s.withScript ts).Exclusive := by
  refine ⟨0, fun k p hk hne => ?_⟩
  obtain ⟨k, rfl⟩ := Nat.exists_eq_succ_of_ne_zero hne
  simp [State.withScript] at hk

theorem State.withFetchWord_exclusive (s : State) (nbits w : Nat) : (s.withFetchWord nbits w).Exclusive := by
  refine ⟨0, fun k p hk hne => ?_⟩
  obtain ⟨k, rfl⟩ := Nat.exists_eq_succ_of_ne_zero hne
  cases hs : s.hosts with
  | nil => simp [State.withFetchWord, hs] at hk
  | cons q qs =>
    simp only [State.withFetchWord, hs, Nat.succ_eq_add_one, List.getElem?_cons_succ, List.getElem?_map,
      Option.map_eq_some_iff] at hk
    obtain ⟨r, -, rfl⟩ := hk
    rfl

end Sys2Proof.Machine
end

