-- ==== Sys2Proof/Laws/Step.lean ====
section
/-! SUPPORT. What a step can do, said once. -/

namespace Sys2Proof.Machine

open Sys2Proof

theorem step_of_reset {s : State} (h : s.resetLine = true) : step s = .next s.resetEvent := by simp [step, h]

theorem step_of_none {s : State} (hr : s.resetLine = false) (hn : s.nextHost = none) : step s = .next s := by
  simp [step, hr, hn]

theorem step_of_offered {s : State} {h : Nat} {t : Transaction} (hr : s.resetLine = false)
    (hn : s.nextHost = some h) (ho : s.offered h = some t) :
    step s = deliverOutcome h (execTransaction t (s.accept h)) := by
  simp [step, hr, hn, ho]

/-- Everything a step can do: a reset event, nothing, or one host's command with its response delivered. -/
theorem step_cases (s : State) :
    (s.resetLine = true ∧ step s = .next s.resetEvent) ∨
    (s.resetLine = false ∧ s.nextHost = none ∧ step s = .next s) ∨
    (∃ h t, s.resetLine = false ∧ s.nextHost = some h ∧ s.offered h = some t ∧
      step s = deliverOutcome h (execTransaction t (s.accept h))) := by
  cases hr : s.resetLine with
  | true => exact .inl ⟨rfl, step_of_reset hr⟩
  | false =>
    cases hn : s.nextHost with
    | none => exact .inr (.inl ⟨rfl, rfl, step_of_none hr hn⟩)
    | some h =>
      obtain ⟨t, ho⟩ := State.nextHost_offers hn
      exact .inr (.inr ⟨h, t, rfl, rfl, ho, step_of_offered hr hn ho⟩)

/-- No host is ready when every script is empty. -/
theorem State.ready_of_empty {s : State} (h : ∀ p ∈ s.hosts, p.script = []) : s.ready = [] := by
  unfold State.ready
  rw [List.filter_eq_nil_iff]
  intro a ha
  simp only [List.mem_range] at ha
  simp [State.hasCommand, List.getElem?_eq_getElem ha, h _ (List.getElem_mem ha)]

end Sys2Proof.Machine
end

