-- ==== Sys2Proof/Tests/Slice0.lean ====
section
/-! SUPPORT. Tests with expected values from the spec's vectors (95_test_vectors.md), and a witness for the hypotheses
of each statement. -/

namespace Sys2Proof.Tests

open Sys2Proof Sys2Proof.Machine

/-! ### Helpers -/

/-- The next state of an outcome. -/
def nextOf (o : Host.Outcome State Fault Refusal) : Option State :=
  match o with
  | .next s => some s
  | .fault _ => none
  | .refused _ => none

/-- `n` bytes counting up from `first`. -/
def upFrom (first n : Nat) : List Byte := (List.range n).map fun i => BitVec.ofNat 8 (first + i)

/-- Key of input KI. -/
def keyKI : Key := ⟨⟨upFrom 0 32⟩, by decide⟩

/-- Nonce of input KI. -/
def nonceKI : Nonce := ⟨⟨upFrom 0x40 20⟩, by decide⟩

/-- Key of input Z. -/
def keyZ : Key := Vector.replicate 32 0

/-- Nonce of input Z. -/
def nonceZ : Nonce := Vector.replicate 20 0

/-- After INIT with input KI, default parameters. -/
def afterKI : State := (State.reset.startSession keyKI nonceKI).respond []

/-- A session with input Z whose permutation has no rounds, so that it evaluates at once. -/
def plainZ : State := (({ State.reset with params := ⟨[], .ffOriginal⟩ }).startSession keyZ nonceZ).respond []

/-- One step of `s` with one host that offers `i`. -/
def stepWith (i : Instr) (s : State) : Option State := nextOf (step (s.withScript [encode i]))

/-- What the one host of a state received last. -/
def lastResponse (s : State) : Option Response := (s.hosts.head?.map HostPort.received).bind List.getLast?

/-! ### WellFormed smoke: an ill-formed term for each check -/

theorem test_wf_refuses_long_key : (Instr.init (List.replicate 256 0) []).wf = false := by decide +kernel
theorem test_wf_refuses_long_nonce : (Instr.init [] (List.replicate 256 0)).wf = false := by decide +kernel
theorem test_wf_refuses_long_buffer : (Instr.xorBuf 0 (List.replicate (2 ^ 64) 0)).wf = false := by
  simp only [Instr.wf, List.length_replicate, Nat.lt_irrefl, decide_false]
theorem test_wf_admits_longest_key_and_nonce :
    (Instr.init (List.replicate 255 0) (List.replicate 255 0)).wf = true := by decide +kernel
/-- U13: a quadruple with repeated indices is refused. -/
theorem test_quad_refuses_repeats : Quad.ofIndices 0 1 2 0 = none ∧ Quad.ofIndices 3 3 1 2 = none := by decide
theorem test_quad_admits_distinct : (Quad.ofIndices 3 4 9 14).map Quad.indices = some [3, 4, 9, 14] := by decide

/-! ### Decode: words written out from 30_encoding.md R46 to R54 -/

/-- OPC 0x01, KLEN 0x02, NLEN 0x01 (R48, R50). -/
theorem test_decode_init : decode ⟨0x01020001, [0xA0, 0xA1, 0xB0]⟩ = .command (.init [0xA0, 0xA1] [0xB0]) := by decide
theorem test_decode_gen : decode ⟨0x00000002, [1, 0, 0, 0, 0, 0, 0, 0x80]⟩ = .command (.gen 0x8000000000000001) := by
  decide
theorem test_decode_genNext : decode ⟨0x00000003, []⟩ = .command .genNext := by decide
theorem test_decode_advance : decode ⟨0x00000004, [0, 0, 0, 0, 1, 0, 0, 0]⟩ = .command (.advance 0x100000000) := by
  decide
theorem test_decode_xorByte :
    decode ⟨0x00000005, [0x2C, 0x01, 0, 0, 0, 0, 0, 0, 0x41]⟩ = .command (.xorByte 300 0x41) := by decide
theorem test_decode_xorBuf :
    decode ⟨0x00000006, [0x3C, 0, 0, 0, 0, 0, 0, 0, 2, 0, 0, 0, 0, 0, 0, 0, 0x48, 0x45]⟩
      = .command (.xorBuf 60 [0x48, 0x45]) := by decide
/-- V10: undefined opcodes and reserved bits are illegal whatever the payload. -/
theorem test_decode_illegal :
    ([⟨0x00000007, []⟩, ⟨0x00000000, []⟩, ⟨0x14200101, List.replicate 52 0⟩, ⟨0x00000102, List.replicate 8 0⟩,
      ⟨0x000000FF, [0]⟩, ⟨0x80000003, []⟩] : List Transaction).map decode
      = List.replicate 6 (.rejected .illegalCommand) := by decide
/-- V10: payloads of the wrong length. -/
theorem test_decode_malformed :
    ([⟨0x14200001, List.replicate 51 0⟩, ⟨0x00000002, List.replicate 7 0⟩, ⟨0x00000006, List.replicate 10 0⟩,
      ⟨0x00000006, [0, 0, 0, 0, 0, 0, 0, 0, 4, 0, 0, 0, 0, 0, 0, 0, 0, 0, 0]⟩, ⟨0x00000003, [0]⟩] : List Transaction).map decode
      = List.replicate 5 (.rejected .malformedPayload) := by decide
/-- The bytes of P1 step 5. -/
theorem test_encode_xorByte :
    (encode (.xorByte 300 0x41)).bytes = [0x05, 0, 0, 0, 0x2C, 0x01, 0, 0, 0, 0, 0, 0, 0x41] := by decide
theorem test_encode_init_word : encodeWord (.init keyKI.toList nonceKI.toList) = 0x14200001 := by decide
theorem test_decodeTableWord :
    [decodeTableWord 32 0x00000001, decodeTableWord 32 0x00000003, decodeTableWord 104 (0x41 * 2 ^ 96 + 300 * 2 ^ 32 + 5),
      decodeTableWord 32 0x00000103]
      = [some (.init [] []), some .genNext, some (.xorByte 300 0x41), none] := by decide
/-- The very next step of `withFetchWord` runs the instruction: before INIT, GEN_NEXT answers 0x02 (R105). -/
theorem test_withFetchWord :
    (nextOf (step (State.reset.withFetchWord 32 3))).bind lastResponse = some ⟨0x02, []⟩ := by decide

/-! ### Script text (R61, R62; lines of 95_test_vectors.md P2 to P4) -/

theorem test_parse_encBuf :
    parseLine "ENC_BUF   60, h\"48454C4C4F212121\"   ; HELLO".toList
      = some (some (.pseudo (.encBuf 60 [0x48, 0x45, 0x4C, 0x4C, 0x4F, 0x21, 0x21, 0x21]))) := by decide +kernel
theorem test_parse_init :
    (parseLine "INIT  key=h\"00\"*16, nonce=h\"00\"*20".toList).map (·.map ScriptLine.transaction)
      = some (some ⟨0x14100001, List.replicate 36 0⟩) := by decide +kernel

/-- Log entry 10: a key of 256 bytes, and a buffer of 2^64 bytes, have no binary form. -/
theorem test_script_refuses_long_key :
    parseLine "INIT  key=h\"00\"*256, nonce=h\"\"".toList = none := by decide +kernel
theorem test_script_refuses_long_buffer : (ScriptLine.pseudo (.keystream 0 (2 ^ 64))).wf = false := by
  simp only [ScriptLine.wf, Pseudo.expand, Instr.wf, List.length_replicate, Nat.lt_irrefl, decide_false]

/-! ### Datapath -/

/-- V1.1, V1.2. -/
theorem test_pack : pack4 0x73 0x6F 0x21 0x4D = 0x4D216F73 ∧ unpack4 0x4D216F73 = [0x73, 0x6F, 0x21, 0x4D] := by decide
/-- V2. -/
theorem test_rotl32 :
    rotl32 0x80000001 1 = 0x00000003 ∧ rotl32 0x12345678 9 = 0x68ACF024 ∧ rotl32 0xDEADBEEF 16 = 0xBEEFDEAD ∧
    rotl32 0x00000001 31 = 0x80000000 := by decide
/-- V3, last row, on words 0 to 3 of a 16-word buffer. -/
theorem test_shuffle :
    (shuffle (#v[0x11111111, 0x22222222, 0x33333333, 0x44444444, 0, 0, 0, 0, 0, 0, 0, 0, 0, 0, 0, 0]) 0 1 2 3).toList.take 4
      = [0xBB008B18, 0xE6EBE1C9, 0xBCB1D169, 0x3DAD299F] := by decide +kernel
/-- V4, round 1 after the group quadruples and after the feed-forward, word 0 to 3. -/
theorem test_round1 :
    (shuffles (initState keyZ nonceZ) groupQuads).toList.take 4 = [0x2D77B0EE, 0x7A6B8ADB, 0x01B8B7DD, 0x2EA3F0B2] ∧
    (roundStep (initState keyZ nonceZ) (groupQuads ++ crossQuads) (initState keyZ nonceZ)).toList.take 4
      = [0x7B38EAAA, 0xE3FDCAE6, 0x30A853FE, 0xB272EF02] := by decide +kernel
/-- V5.1 (Z, block 0) and V5.4 (the other feed-forward mode): the first bytes. -/
theorem test_perm_modes :
    (blockBytes (perm Params.default (initState keyZ nonceZ))).take 8
      = [0xC5, 0x67, 0x22, 0xD4, 0xA2, 0x0B, 0x63, 0x2F] ∧
    (blockBytes (perm ⟨schedDoc, .ffPreRound⟩ (initState keyZ nonceZ))).take 8
      = [0xFC, 0xE2, 0x39, 0x02, 0x54, 0x6F, 0x2F, 0xB0] := by decide +kernel
/-- V6.2. -/
theorem test_offset_split :
    ([0, 63, 64, 300, 0xFFFFFFFFFFFFFFFF] : List U64).map (fun off => (blkOf off, posOf off))
      = [(0, 0), (0, 63), (1, 0), (4, 44), (0x03FFFFFFFFFFFFFF, 63)] := by decide

/-! ### One step per command, at most two tests each -/

/-- P1 step 1. -/
theorem test_init :
    (stepWith (.init keyKI.toList nonceKI.toList) State.reset).map (fun s =>
      (s.initDone, s.LBI, [s.N0, s.S[9], s.S[11], s.S[15], s.KS[0], s.KS[15]], lastResponse s))
      = some (true, 0, [0x43424140, 0x1F1E1D1C, 0x43424140, 0x53525150, 0x0BA2195A, 0x9F49DC34], some ⟨0x00, []⟩) := by
  decide +kernel
/-- V10: both lengths wrong, the key is checked first; an earlier session stays. -/
theorem test_init_key_checked_first :
    (stepWith (.init (List.replicate 16 0) (List.replicate 12 0)) plainZ).map (fun s =>
      (s.status, s.initDone, s.S == plainZ.S, lastResponse s)) = some (0x03, true, true, some ⟨0x03, []⟩) := by decide
/-- V7, first row. -/
theorem test_gen :
    (stepWith (.gen 1) afterKI).map (fun s =>
      ([s.S[10], s.S[11], s.KS[0]], s.LBI, s.respData.length, s.respData.take 8))
      = some ([1, 0x43424140, 0x6DA04B9E], 1, 64, [0x9E, 0x4B, 0xA0, 0x6D, 0x57, 0xAD, 0xF3, 0x0F]) := by decide +kernel
/-- V7, row 5, from the state ADVANCE 0xFFFFFFFF leaves. -/
theorem test_genNext_crosses_32_bits :
    (stepWith .genNext ((State.reset.startSession keyZ nonceZ).regen 0xFFFFFFFF)).map (fun s =>
      (s.S[10], s.S[11], s.LBI, s.respData.take 4)) = some (0, 1, 0x100000000, [0x49, 0x12, 0x4B, 0x42]) := by
  decide +kernel
/-- V7, row 6. -/
theorem test_genNext_exhausted :
    (stepWith .genNext (plainZ.regen 0xFFFFFFFFFFFFFFFF)).map (fun s => (s.LBI, lastResponse s))
      = some (0xFFFFFFFFFFFFFFFF, some ⟨0x05, []⟩) := by decide
/-- P3 step 5. -/
theorem test_advance :
    (stepWith (.advance 0xFFFFFFFFFFFFFFFF) (State.reset.startSession keyZ nonceZ)).map (fun s =>
      (s.S[10], s.S[11], s.LBI, s.KS[0], lastResponse s))
      = some (0xFFFFFFFF, 0xFFFFFFFF, 0xFFFFFFFFFFFFFFFF, 0x6FC39461, some ⟨0x00, []⟩) := by decide +kernel
/-- V8, row 2, a hit. -/
theorem test_xorByte_hit :
    (stepWith (.xorByte 63 0xFF) afterKI).map (fun s => (s.LBI, lastResponse s)) = some (0, some ⟨0x00, [0x60]⟩) := by
  decide +kernel
/-- V8, last row, a miss at the end of the offset space. -/
theorem test_xorByte_miss :
    (stepWith (.xorByte 0xFFFFFFFFFFFFFFFF 0x00) afterKI).map (fun s => (s.LBI, s.S[11], lastResponse s))
      = some (0x03FFFFFFFFFFFFFF, 0x40BDBEBF, some ⟨0x00, [0xAB]⟩) := by decide +kernel
/-- V9.2. -/
theorem test_xorBuf :
    (stepWith (.xorBuf 60 [0x48, 0x45, 0x4C, 0x4C, 0x4F, 0x21, 0x21, 0x21]) afterKI).map (fun s => (s.LBI, lastResponse s))
      = some (1, some ⟨0x00, [0x7C, 0x99, 0x05, 0xD3, 0xD1, 0x6A, 0x81, 0x4C]⟩) := by decide +kernel
/-- V9.6. -/
theorem test_xorBuf_overflow :
    (stepWith (.xorBuf 0xFFFFFFFFFFFFFFFF [0, 0]) plainZ).map (fun s => (s.LBI, lastResponse s))
      = some (0, some ⟨0x06, []⟩) := by decide

/-! ### The step around a command -/

/-- Two hosts with a command each. -/
def twoHosts : State :=
  { plainZ with hosts := [⟨[encode (.advance 5)], []⟩, ⟨[encode (.xorByte 0 0), ⟨7, []⟩], [⟨0x00, []⟩]⟩] }

/-- Whatever the scheduler draws, one of the two is accepted. -/
theorem test_one_of_two_hosts : twoHosts.nextHost = some 0 ∨ twoHosts.nextHost = some 1 := by
  have hr : twoHosts.ready = [0, 1] := by decide
  simp only [State.nextHost, hr, List.length_cons, List.length_nil]
  have := Nat.mod_lt (Config.schedulerDraw twoHosts.accepted) (show 0 < 2 by decide)
  generalize Config.schedulerDraw twoHosts.accepted % 2 = n at this ⊢
  interval_cases n
  · exact .inl rfl
  · exact .inr rfl

/-- R115, R116, R125. -/
theorem test_reset_event :
    (nextOf (step { twoHosts with resetLine := true })).map (fun s =>
      (s.initDone, s.status, s.resetLine, s.hosts))
      = some (false, 0x00, false, [⟨[], []⟩, ⟨[], [⟨0x00, []⟩]⟩]) := by decide

theorem test_idle_at_reset : nextOf (step State.reset) = some State.reset := by decide

/-! ### Witnesses: concrete values that meet the hypotheses of each statement, clause by clause -/

/-- A transaction offered by the one host of a state. -/
def offering (t : Transaction) (s : State) : State := s.withScript [t]

/-- `plainZ` at the last block. -/
def lastBlock : State := plainZ.regen 0xFFFFFFFFFFFFFFFF

theorem plainZ_cacheInv : plainZ.CacheInv := (State.inSession_startSession keyZ nonceZ _).cacheInv
theorem lastBlock_cacheInv : lastBlock.CacheInv :=
  State.InSession.cacheInv ((State.inSession_startSession keyZ nonceZ _).regen _)

theorem witness_DecodeEncodeIsIdentity :
    (Instr.init (List.replicate 255 0) []).wf = true ∧ (Instr.gen 0xFFFFFFFFFFFFFFFF).wf = true ∧
    Instr.genNext.wf = true ∧ (Instr.advance 0).wf = true ∧ (Instr.xorByte 0 0xFF).wf = true ∧
    (Instr.xorBuf 0 []).wf = true := by decide +kernel
theorem witness_EncodeDecodedIsIdentity :
    decode ⟨0x00000006, List.replicate 16 0⟩ = .command (.xorBuf 0 []) := by decide
theorem witness_TransactionBytesRoundTrip :
    Transaction.ofBytes [3, 0, 0, 0] = some ⟨0x00000003, []⟩ := by decide
theorem witness_IllegalWordsExactly :
    decode ⟨0x00000007, []⟩ = .rejected .illegalCommand ∧ decode ⟨0x00000000, []⟩ = .rejected .illegalCommand ∧
    decode ⟨0x00000101, []⟩ = .rejected .illegalCommand ∧ decode ⟨0x00000106, []⟩ = .rejected .illegalCommand := by
  decide
theorem witness_MalformedPayloadsExactly :
    decode ⟨0x00000002, List.replicate 8 0⟩ ≠ .rejected .illegalCommand ∧
    decode ⟨0x00000006, List.replicate 15 0⟩ = .rejected .malformedPayload := by decide
theorem witness_BlockIndexPayload : (List.replicate 8 (0xFF : Byte)).length = 8 := by decide
theorem witness_GenNextAndXorBytePayload : (List.replicate 9 (0xFF : Byte)).length = 9 := by decide
theorem witness_InitPayload :
    (0x14200001 : Word).extractLsb' 0 16 = 0x0001 ∧
    keyZ.toList.length = ((0x14200001 : Word).extractLsb' 16 8).toNat ∧
    nonceZ.toList.length = ((0x14200001 : Word).extractLsb' 24 8).toNat := by decide
theorem witness_XorBufPayload :
    let h : List Byte := [0xFE, 0xFF, 0xFF, 0xFF, 0xFF, 0xFF, 0xFF, 0xFF, 2, 0, 0, 0, 0, 0, 0, 0]
    h.length = 16 ∧ (∀ j, j < 8 → h[j]? = some ((0xFFFFFFFFFFFFFFFE : U64).extractLsb' (8 * j) 8)) ∧
    (∀ j, j < 8 → h[8 + j]? = some ((2 : U64).extractLsb' (8 * j) 8)) ∧
    ([0, 0] : List Byte).length = (2 : U64).toNat := by decide
theorem witness_StepRunsAcceptedCommand :
    let s := offering ⟨0x00000003, []⟩ plainZ
    let r := offering ⟨0x00000007, []⟩ plainZ
    (s.resetLine = false ∧ s.nextHost = some 0 ∧ s.offered 0 = some ⟨0x00000003, []⟩ ∧
      decode ⟨0x00000003, []⟩ = .command .genNext) ∧
    (r.resetLine = false ∧ r.nextHost = some 0 ∧ r.offered 0 = some ⟨0x00000007, []⟩ ∧
      decode ⟨0x00000007, []⟩ = .rejected .illegalCommand) := by decide
theorem witness_FetchedWordIsStepped : decodeTableWord 32 0x00000003 = some .genNext := by decide
theorem witness_IdleStepRetainsState :
    ({ plainZ with hosts := [⟨[], [⟨0x00, []⟩]⟩] } : State).resetLine = false ∧
    ∀ p ∈ ({ plainZ with hosts := [⟨[], [⟨0x00, []⟩]⟩] } : State).hosts, p.script = [] := by decide
theorem witness_ResetEventEndsTheRun : ({ twoHosts with resetLine := true } : State).resetLine = true := by decide
theorem witness_EachStepServesOneHost :
    twoHosts.resetLine = false ∧ ∃ p ∈ twoHosts.hosts, p.script ≠ [] := by decide
theorem witness_RunServesEveryCommand : twoHosts.resetLine = false ∧ twoHosts.pendingCount = 3 := by decide
theorem witness_FirstFailingCheckDecides :
    decodeWord 0x00000007 = none ∧
    (decodeWord 0x00000002 = some .gen ∧ payloadFits .gen 0x00000002 (List.replicate 7 0) = false) ∧
    (decode ⟨0x00000003, []⟩ = .command .genNext ∧ Instr.genNext.opcode ≠ .init ∧ State.reset.initDone = false) ∧
    (decode ⟨0x0C1F0001, List.replicate 43 0⟩ = .command (.init (List.replicate 31 0) (List.replicate 12 0)) ∧
      (List.replicate 31 (0 : Byte)).length ≠ 32) ∧
    (decode ⟨0x0C200001, List.replicate 44 0⟩ = .command (.init (List.replicate 32 0) (List.replicate 12 0)) ∧
      (List.replicate 32 (0 : Byte)).length = 32 ∧ (List.replicate 12 (0 : Byte)).length ≠ 20) ∧
    (lastBlock.initDone = true ∧ lastBlock.LBI = 0xFFFFFFFFFFFFFFFF) ∧
    (decode (encode (.xorBuf 0xFFFFFFFFFFFFFFFF [0, 0])) = .command (.xorBuf 0xFFFFFFFFFFFFFFFF [0, 0]) ∧
      plainZ.initDone = true ∧ 2 ^ 64 < (0xFFFFFFFFFFFFFFFF : U64).toNat + ([0, 0] : List Byte).length) := by decide
theorem witness_ErrorChangesOnlyStatus :
    execTransaction ⟨0x00000003, []⟩ State.reset = .next (State.reset.raise .notInitialized) ∧
    (State.reset.raise .notInitialized).status ≠ 0x00 := ⟨rfl, by decide⟩
theorem witness_NotInitializedBeforeInit :
    State.reset.initDone = false ∧ (Instr.xorBuf 0 []).opcode ≠ .init := by decide
theorem witness_InitCompletes :
    keyZ.toList.length = 32 ∧ nonceZ.toList.length = 20 ∧ (List.replicate 31 (0 : Byte)).length ≠ 32 ∧
    (List.replicate 21 (0 : Byte)).length ≠ 20 := by decide
theorem witness_SetBlockWritesTwoWords : (9 : Fin 16) ≠ 10 ∧ (9 : Fin 16) ≠ 11 ∧ (12 : Fin 16) ≠ 10 := by decide
theorem witness_CounterInjectionIsInjective : (0 : U64) ≠ 0x100000000 := by decide
theorem witness_OffsetsReachLowBlocksOnly :
    (Instr.xorByte 0xFFFFFFFFFFFFFFFF 0).opcode = .xorByte ∧
    (nextOf (exec (.xorByte 0xFFFFFFFFFFFFFFFF 0) plainZ)).map State.LBI = some 0x03FFFFFFFFFFFFFF := by decide
/-- V6.4: KI and KI' differ in nonce byte 0 only. -/
theorem witness_CrossNonceAliasing :
    (∀ i : Fin 20, 4 ≤ i.val → nonceKI[i] = (nonceKI.set 0 0x41)[i]) ∧
    nonceWord nonceKI 0 ^^^ nonceWord (nonceKI.set 0 0x41) 0 = 1 := by decide
theorem witness_RotationMovesBits : 1 ≤ 31 ∧ 31 ≤ 31 ∧ 31 < 32 ∧ (31 + 32 - 31) % 32 = 0 := by decide
theorem witness_ShuffleFollowsItsSteps : ∀ q ∈ groupQuads, q.a = 0 → (4 : Fin 16) ∉ q.indices := by decide
theorem witness_DisjointShufflesCommute :
    (∀ q ∈ groupQuads, ∀ r ∈ groupQuads, q ≠ r → ∀ i ∈ q.indices, i ∉ r.indices) ∧
    (∀ q ∈ groupQuads, ∀ i ∈ q.indices, (Vector.replicate 16 0 : Words)[i] = 0) := by decide
theorem witness_GenCompletes : plainZ.initDone = true ∧ State.reset.initDone = false := by decide
theorem witness_GenNextCompletes :
    (plainZ.initDone = true ∧ plainZ.LBI ≠ 0xFFFFFFFFFFFFFFFF) ∧
    (lastBlock.initDone = true ∧ lastBlock.LBI = 0xFFFFFFFFFFFFFFFF) ∧ State.reset.initDone = false := by decide
theorem witness_AdvanceCompletes : plainZ.initDone = true ∧ State.reset.initDone = false := by decide
theorem witness_BlocksDependOnSessionOnly :
    plainZ.CacheInv ∧ plainZ.initDone = true ∧ plainZ.LBI ≠ 0xFFFFFFFFFFFFFFFF :=
  ⟨plainZ_cacheInv, by decide, by decide⟩
theorem witness_CommandsAreIdempotent :
    (∃ t, exec (.gen 7) plainZ = .next t) ∧ (∃ t, exec (.xorBuf 60 [1, 2]) plainZ = .next t) ∧ plainZ.CacheInv :=
  ⟨⟨_, rfl⟩, ⟨_, rfl⟩, plainZ_cacheInv⟩
theorem witness_XorByteCompletes :
    plainZ.initDone = true ∧ (63 : U64) >>> 6 = plainZ.LBI ∧ (64 : U64) >>> 6 ≠ plainZ.LBI ∧
    State.reset.initDone = false := by decide
/-- A range that ends at 2^64 exactly, and one that ends one past it. -/
theorem witness_XorBufCompletes :
    plainZ.initDone = true ∧ (0xFFFFFFFFFFFFFFFF : U64).toNat + ([0] : List Byte).length ≤ 2 ^ 64 ∧
    2 ^ 64 < (0xFFFFFFFFFFFFFFFF : U64).toNat + ([0, 0] : List Byte).length ∧ State.reset.initDone = false := by decide
theorem witness_BufferLoopIsIndexedLoop : ([9, 9] : List Byte).length = ([1, 2] : List Byte).length := by decide
theorem witness_XorBufEqualsXorByteSequence :
    plainZ.initDone = true ∧ (0xFFFFFFFFFFFFFFFE : U64).toNat + ([1, 2] : List Byte).length ≤ 2 ^ 64 := by decide
theorem witness_CacheIsInvisible :
    lastBlock.CacheInv ∧ lastBlock.initDone = true ∧
    (0xFFFFFFFFFFFFFFFE : U64).toNat + ([1, 2] : List Byte).length ≤ 2 ^ 64 :=
  ⟨lastBlock_cacheInv, by decide, by decide⟩
theorem witness_SessionsDecryptEachOther :
    plainZ.CacheInv ∧ lastBlock.CacheInv ∧ plainZ.initDone = true ∧ lastBlock.initDone = true ∧
    plainZ.params = lastBlock.params ∧ plainZ.keyReg = lastBlock.keyReg ∧ plainZ.nonceReg = lastBlock.nonceReg ∧
    plainZ ≠ lastBlock ∧ (60 : U64).toNat + ([1, 2, 3, 4, 5] : List Byte).length ≤ 2 ^ 64 :=
  ⟨plainZ_cacheInv, lastBlock_cacheInv, by decide⟩
theorem witness_EachTouchedBlockRegeneratedOnce :
    ([0, 0] : List Byte) ≠ [] ∧ (0xFFFFFFFFFFFFFFFE : U64).toNat + ([0, 0] : List Byte).length ≤ 2 ^ 64 := by decide
theorem witness_KeystreamPseudoReadsKeystream :
    plainZ.CacheInv ∧ plainZ.initDone = true ∧ (0xFFFFFFFFFFFFFFFF : U64).toNat + 1 ≤ 2 ^ 64 :=
  ⟨plainZ_cacheInv, by decide⟩
theorem witness_OnlyInitWritesSessionRegisters :
    (∃ t, exec .genNext plainZ = .next t) ∧ Instr.genNext.opcode ≠ .init := ⟨⟨_, rfl⟩, by decide⟩
theorem witness_InvariantIsKept :
    (offering ⟨0x00000003, []⟩ plainZ).Inv ∧ (nextOf (step (offering ⟨0x00000003, []⟩ plainZ))).isSome = true :=
  ⟨⟨plainZ_cacheInv, rfl⟩, by decide⟩
theorem witness_ResetContentsAreUnobservable :
    SameView State.reset { State.reset with LBI := 5, KS := Vector.replicate 16 1 } ∧
    State.reset ≠ { State.reset with LBI := 5, KS := Vector.replicate 16 1 } :=
  ⟨⟨rfl, by decide⟩, by decide⟩
theorem witness_KeyCopiesAreUnobservable :
    SameButKeyCopies plainZ { plainZ with keyReg := keyKI } ∧ plainZ ≠ { plainZ with keyReg := keyKI } :=
  ⟨rfl, by decide⟩
theorem witness_XorAnswerUnderAnyInterleaving :
    let s := offering (encode (.xorByte 64 0x41)) plainZ
    s.CacheInv ∧ s.initDone = true ∧ s.resetLine = false ∧ s.nextHost = some 0 ∧
    s.hosts[0]? = some ⟨[encode (.xorByte 64 0x41)], []⟩ :=
  ⟨plainZ_cacheInv, by decide⟩
theorem witness_InstancesAreIndependent : ([State.reset, plainZ] : Platform)[1]? = some plainZ := by decide

end Sys2Proof.Tests
end

section
/-! PROOFS. Byte and word conversion (00_scope.md R10): `pack4` and `unpack4` are the four-byte case of the
little-endian numbers `leNat` and `leBytes`, so their laws are those of `leNat` and `leBytes`. -/

namespace Sys2Proof.Machine

open Sys2Proof

/-- A shifted field above a number that ends below it: the OR is a sum. -/
theorem or_shiftLeft_eq_add {a i : Nat} (h : a < 2 ^ i) (b : Nat) : a ||| b <<< i = a + 2 ^ i * b := by
  rw [Nat.or_comm, Nat.shiftLeft_eq, Nat.mul_comm, ← Nat.two_pow_add_eq_or_of_lt h, Nat.add_comm]

/-- A byte moved to a higher place of a word loses no bit. -/
theorem byte_zeroExtend_shiftLeft_toNat (b : Byte) {k : Nat} (h : k ≤ 24) :
    (b.zeroExtend 32 <<< k).toNat = b.toNat <<< k := by
  have hfit : b.toNat <<< k < 2 ^ 32 := by
    calc b.toNat <<< k = b.toNat * 2 ^ k := Nat.shiftLeft_eq ..
      _ < 2 ^ 8 * 2 ^ k := Nat.mul_lt_mul_of_pos_right b.isLt (Nat.two_pow_pos k)
      _ = 2 ^ (8 + k) := (Nat.pow_add ..).symm
      _ ≤ 2 ^ 32 := Nat.pow_le_pow_right (by decide) (by omega)
  rw [BitVec.toNat_shiftLeft, BitVec.toNat_setWidth_of_le (by decide), Nat.mod_eq_of_lt hfit]

/-- The number of a packed word is the little-endian number of its bytes (R10, 20_memory.md R37). -/
theorem pack4_toNat (b0 b1 b2 b3 : Byte) : (pack4 b0 b1 b2 b3).toNat = leNat [b0, b1, b2, b3] := by
  have h0 := b0.isLt
  have h1 := b1.isLt
  have h2 := b2.isLt
  simp only [pack4, BitVec.toNat_or, byte_zeroExtend_shiftLeft_toNat _ (show 8 ≤ 24 by decide),
    byte_zeroExtend_shiftLeft_toNat _ (show 16 ≤ 24 by decide), byte_zeroExtend_shiftLeft_toNat _ (Nat.le_refl 24),
    BitVec.toNat_setWidth_of_le (show 8 ≤ 32 by decide)]
  rw [or_shiftLeft_eq_add h0 b1.toNat, or_shiftLeft_eq_add (i := 16) (by omega) b2.toNat,
    or_shiftLeft_eq_add (i := 24) (by omega) b3.toNat]
  simp only [leNat]
  omega

/-- Byte `j` of a word, as the base-256 digit `j` of its number. -/
theorem wordByte_eq_ofNat (w : Word) (j : Nat) : wordByte w j = BitVec.ofNat 8 (w.toNat / 256 ^ j) := by
  apply BitVec.eq_of_toNat_eq
  simp [wordByte, BitVec.extractLsb'_toNat, Nat.shiftRight_eq_div_pow, Nat.pow_mul]

/-- `unpack4` writes a word's number as four little-endian bytes. -/
theorem unpack4_eq_leBytes (w : Word) : unpack4 w = leBytes 4 w.toNat := by
  simp [unpack4, wordByte_eq_ofNat, leBytes, Nat.div_div_eq_div_mul]

theorem unpack4_eq_fields (w : Word) :
    unpack4 w = [w.extractLsb' 0 8, w.extractLsb' 8 8, w.extractLsb' 16 8, w.extractLsb' 24 8] := rfl

@[simp] theorem unpack4_pack4 (b0 b1 b2 b3 : Byte) : unpack4 (pack4 b0 b1 b2 b3) = [b0, b1, b2, b3] := by
  rw [unpack4_eq_leBytes, pack4_toNat]
  exact leBytes_leNat [b0, b1, b2, b3]

/-- A word is packed from its own byte fields. -/
@[simp] theorem pack4_fields (w : Word) :
    pack4 (w.extractLsb' 0 8) (w.extractLsb' 8 8) (w.extractLsb' 16 8) (w.extractLsb' 24 8) = w := by
  apply BitVec.eq_of_toNat_eq
  rw [pack4_toNat, ← unpack4_eq_fields, unpack4_eq_leBytes, leNat_leBytes]
  exact Nat.mod_eq_of_lt w.isLt

/-- Settles O26: both inverse laws are those of `leBytes` and `leNat`; the byte fields are `unpack4` written out. -/
theorem packAndUnpackAreInverse : Obligations.PackAndUnpackAreInverse :=
  ⟨unpack4_pack4, unpack4_eq_fields, pack4_fields⟩

end Sys2Proof.Machine
end

section
/-! PROOFS. What a command does, as a function of the registers it reads. A command reads INIT_DONE and, in a session,
S, N0, KS, LBI and the parameters; with these given, it has one `Effect`, the same on every state that agrees on them.
The whole-machine rules of 10_state.md then need a case per effect and none per command. -/

namespace Sys2Proof.Machine

open Sys2Proof

/-! ### Regenerations in a row -/

/-- The blocks of a list regenerated in order (44_byte_xor.md R99). -/
def State.regens (bs : List U64) (s : State) : State := bs.foldl (fun u b => u.regen b) s

@[simp] theorem State.regens_nil (s : State) : s.regens [] = s := rfl

@[simp] theorem State.regens_cons (b : U64) (bs : List U64) (s : State) :
    s.regens (b :: bs) = (s.regen b).regens bs := rfl

/-- Regenerations write S, KS and LBI only. -/
theorem State.regens_frame (bs : List U64) (s : State) :
    s.regens bs = { s with S := (s.regens bs).S, KS := (s.regens bs).KS, LBI := (s.regens bs).LBI } := by
  induction bs generalizing s with
  | nil => rfl
  | cons b bs ih => exact ih (s.regen b)

@[simp] theorem State.regens_N0 (bs : List U64) (s : State) : (s.regens bs).N0 = s.N0 := by
  rw [s.regens_frame]
@[simp] theorem State.regens_initDone (bs : List U64) (s : State) : (s.regens bs).initDone = s.initDone := by
  rw [s.regens_frame]
@[simp] theorem State.regens_status (bs : List U64) (s : State) : (s.regens bs).status = s.status := by
  rw [s.regens_frame]
@[simp] theorem State.regens_keyReg (bs : List U64) (s : State) : (s.regens bs).keyReg = s.keyReg := by
  rw [s.regens_frame]
@[simp] theorem State.regens_nonceReg (bs : List U64) (s : State) : (s.regens bs).nonceReg = s.nonceReg := by
  rw [s.regens_frame]
@[simp] theorem State.regens_params (bs : List U64) (s : State) : (s.regens bs).params = s.params := by
  rw [s.regens_frame]
@[simp] theorem State.regens_respData (bs : List U64) (s : State) : (s.regens bs).respData = s.respData := by
  rw [s.regens_frame]
@[simp] theorem State.regens_hosts (bs : List U64) (s : State) : (s.regens bs).hosts = s.hosts := by
  rw [s.regens_frame]
@[simp] theorem State.regens_resetLine (bs : List U64) (s : State) : (s.regens bs).resetLine = s.resetLine := by
  rw [s.regens_frame]
@[simp] theorem State.regens_accepted (bs : List U64) (s : State) : (s.regens bs).accepted = s.accepted := by
  rw [s.regens_frame]
@[simp] theorem State.regens_resets (bs : List U64) (s : State) : (s.regens bs).resets = s.resets := by
  rw [s.regens_frame]

/-- Regenerations leave every state word but 10 and 11 alone (41_block_index_update.md R67). -/
theorem State.regens_S_other (bs : List U64) (s : State) (j : Fin 16) (h10 : j ≠ 10) (h11 : j ≠ 11) :
    (s.regens bs).S[j] = s.S[j] := by
  induction bs generalizing s with
  | nil => rfl
  | cons b bs ih =>
    calc ((s.regen b).regens bs).S[j] = (s.regen b).S[j] := ih (s.regen b)
      _ = s.S[j] := injectBlock_other _ _ _ _ h10 h11

/-- The XOR loop regenerates the blocks it misses and does nothing else to the state (R95, R99). -/
theorem xorBytes_snd (off : U64) (buf : List Byte) (s : State) :
    (xorBytes off buf s).2 = s.regens (missedBlocks s.LBI off buf.length) := by
  induction buf generalizing off s with
  | nil => rfl
  | cons x xs ih =>
    simp only [xorBytes, xorAt, List.length_cons, missedBlocks]
    rw [ih, State.touch_LBI]
    obtain ⟨hit, e⟩ | ⟨miss, e⟩ := s.touch_cases (blkOf off)
    · rw [e, if_pos hit, hit]
    · rw [e, if_neg miss, State.regens_cons]

/-! ### The registers a command reads -/

/-- Two states with the same datapath: the registers and parameters a session's commands read. -/
structure SameDatapath (s t : State) : Prop where
  S : t.S = s.S
  N0 : t.N0 = s.N0
  KS : t.KS = s.KS
  LBI : t.LBI = s.LBI
  params : t.params = s.params

/-- Two states no command tells apart: INIT_DONE agrees, and in a session the datapath (60_exceptions.md R105). -/
structure SameReads (s t : State) : Prop where
  initDone : t.initDone = s.initDone
  datapath : s.initDone = true → SameDatapath s t

theorem SameReads.refl (s : State) : SameReads s s := ⟨rfl, fun _ => ⟨rfl, rfl, rfl, rfl, rfl⟩⟩

theorem SameDatapath.regen {s t : State} (h : SameDatapath s t) (b : U64) :
    SameDatapath (s.regen b) (t.regen b) where
  S := by simp [h.S, h.N0]
  N0 := h.N0
  KS := by simp [h.S, h.N0, h.params]
  LBI := rfl
  params := h.params

theorem SameReads.accept {s t : State} (h : SameReads s t) (k : Nat) : SameReads (s.accept k) (t.accept k) where
  initDone := h.initDone
  datapath hd :=
    have d := h.datapath hd
    ⟨d.S, d.N0, d.KS, d.LBI, d.params⟩

theorem SameDatapath.touch {s t : State} (h : SameDatapath s t) (blk : U64) :
    SameDatapath (s.touch blk) (t.touch blk) := by
  unfold State.touch
  rw [h.LBI]
  split
  · exact h
  · exact h.regen blk

theorem SameDatapath.xorBytes_fst {s t : State} (h : SameDatapath s t) (off : U64) (buf : List Byte) :
    (xorBytes off buf t).1 = (xorBytes off buf s).1 := by
  induction buf generalizing off s t with
  | nil => rfl
  | cons x xs ih =>
    have h1 := h.touch (blkOf off)
    simp only [xorBytes, xorAt]
    rw [ih h1, h1.KS]

/-! ### Effects -/

/-- What a completed transaction does to the state. -/
inductive Effect where
  | fails (e : StatusCode)                              -- answer an error (60_exceptions.md R104)
  | starts (key : Key) (nonce : Nonce)                  -- start a session (40_initializer.md R66)
  | regenerates (bs : List U64) (data : List Byte)      -- regenerate these blocks in order, answer the data

def Effect.apply : Effect → State → State
  | .fails e, s => s.raise e
  | .starts key nonce, s => (s.startSession key nonce).respond []
  | .regenerates bs data, s => (s.regens bs).respond data

/-- The effect starts no session. -/
def Effect.KeepsSession : Effect → Prop
  | .starts _ _ => False
  | _ => True

/-- No effect answers with a reserved code (60_exceptions.md R101). -/
theorem Effect.apply_statusLegal (E : Effect) (s : State) : (E.apply s).StatusLegal := by
  cases E with
  | fails e => exact reservedCode_code e
  | starts _ _ => exact reservedCode_code .ok
  | regenerates _ _ => exact reservedCode_code .ok

/-- The response of an effect is delivered and raises no fault. -/
theorem Effect.deliverOutcome_apply (E : Effect) (h : Nat) (s : State) :
    deliverOutcome h (.next (E.apply s)) = .next ((E.apply s).deliver h) := by
  have hl : reservedCode (E.apply s).status = false := E.apply_statusLegal s
  rw [deliverOutcome_next, hl, if_neg Bool.false_ne_true]

/-- Every command but INIT tests INIT_DONE first (60_exceptions.md R105). -/
theorem exec_of_not_initDone {i : Instr} {s : State} (hi : i.opcode ≠ .init) (hd : s.initDone = false) :
    exec i s = .next (s.raise .notInitialized) := by
  cases i with
  | init => exact absurd rfl hi
  | gen => simp [exec, execGen, hd]
  | genNext => simp [exec, execGenNext, hd]
  | advance => simp [exec, execAdvance, hd]
  | xorByte => simp [exec, execXorByte, hd]
  | xorBuf => simp [exec, execXorBuf, hd]

/-- INIT reads nothing: its operands decide its effect. -/
theorem execInit_effect (key nonce : List Byte) : ∃ E : Effect, ∀ t, execInit key nonce t = .next (E.apply t) := by
  by_cases hk : key.length = 32
  · by_cases hn : nonce.length = 20
    · exact ⟨.starts ⟨⟨key⟩, hk⟩ ⟨⟨nonce⟩, hn⟩, fun t => by simp [execInit, hk, hn, Effect.apply]⟩
    · exact ⟨.fails .invalidNonceLength, fun t => by simp [execInit, hk, hn, Effect.apply]⟩
  · exact ⟨.fails .invalidKeyLength, fun t => by simp [execInit, hk, Effect.apply]⟩

/-- XOR_BYTE is the XOR loop over one byte (44_byte_xor.md R94, R95). -/
theorem execXorByte_eq {s : State} (hd : s.initDone = true) (off : U64) (x : Byte) :
    execXorByte off x s = .next ((xorBytes off [x] s).2.respond (xorBytes off [x] s).1) := by
  rw [execXorByte, if_pos hd]
  rfl

/-- The XOR loop and its response, as an effect that the datapath alone decides. -/
theorem SameDatapath.xorBytes_effect {s t : State} (h : SameDatapath s t) (off : U64) (buf : List Byte) :
    (xorBytes off buf t).2.respond (xorBytes off buf t).1 =
      (Effect.regenerates (missedBlocks s.LBI off buf.length) (xorBytes off buf s).1).apply t := by
  rw [xorBytes_snd, h.LBI, h.xorBytes_fst, Effect.apply]

/-- In a session every command but INIT fails or regenerates blocks that the datapath alone decides. -/
theorem exec_session_effect {i : Instr} (s : State) (hi : i.opcode ≠ .init) : ∃ E : Effect, E.KeepsSession ∧
    ∀ t, t.initDone = true → SameDatapath s t → exec i t = .next (E.apply t) := by
  cases i with
  | init => exact absurd rfl hi
  | gen b =>
    refine ⟨.regenerates [b] (blockBytes (s.regen b).KS), trivial, fun t hd h => ?_⟩
    simp [exec, execGen, hd, Effect.apply, h.S, h.N0, h.params]
  | genNext =>
    by_cases hl : s.LBI = 0xFFFFFFFFFFFFFFFF
    · refine ⟨.fails .keystreamExhausted, trivial, fun t hd h => ?_⟩
      simp [exec, execGenNext, hd, Effect.apply, h.LBI, hl]
    · refine ⟨.regenerates [s.LBI + 1] (blockBytes (s.regen (s.LBI + 1)).KS), trivial, fun t hd h => ?_⟩
      have hl' : t.LBI ≠ 0xFFFFFFFFFFFFFFFF := h.LBI ▸ hl
      rw [exec, execGenNext, if_pos hd, if_neg hl']
      simp [Effect.apply, h.S, h.N0, h.LBI, h.params]
  | advance b =>
    exact ⟨.regenerates [b] [], trivial, fun t hd _ => by simp [exec, execAdvance, hd, Effect.apply]⟩
  | xorByte off x =>
    refine ⟨.regenerates (missedBlocks s.LBI off [x].length) (xorBytes off [x] s).1, trivial, fun t hd h => ?_⟩
    rw [exec, execXorByte_eq hd, h.xorBytes_effect]
  | xorBuf start buf =>
    by_cases ho : offsetOverflows start buf.length = true
    · exact ⟨.fails .offsetOverflow, trivial, fun t hd _ => by simp [exec, execXorBuf, hd, ho, Effect.apply]⟩
    · refine ⟨.regenerates (missedBlocks s.LBI start buf.length) (xorBytes start buf s).1, trivial,
        fun t hd h => ?_⟩
      rw [exec, execXorBuf, if_pos hd, if_neg ho, ← h.xorBytes_effect]

/-- What a command can do, said once: from all states that agree on the registers it reads, one effect; and only INIT
starts a session. -/
theorem exec_effect (i : Instr) (s : State) : ∃ E : Effect, (i.opcode ≠ .init → E.KeepsSession) ∧
    ∀ t, SameReads s t → exec i t = .next (E.apply t) := by
  by_cases hi : i.opcode = .init
  · cases i with
    | init key nonce =>
      obtain ⟨E, hE⟩ := execInit_effect key nonce
      exact ⟨E, fun h => absurd rfl h, fun t _ => hE t⟩
    | _ => cases hi
  · cases hd : s.initDone with
    | false =>
      exact ⟨.fails .notInitialized, fun _ => trivial, fun t h => exec_of_not_initDone hi (h.initDone.trans hd)⟩
    | true =>
      obtain ⟨E, hK, hE⟩ := exec_session_effect s hi
      exact ⟨E, fun _ => hK, fun t h => hE t (h.initDone.trans hd) (h.datapath hd)⟩

/-- A transaction the decoder turns away has an effect too: it fails (30_encoding.md R57, R58). -/
theorem execTransaction_effect (tr : Transaction) (s : State) : ∃ E : Effect,
    ∀ t, SameReads s t → execTransaction tr t = .next (E.apply t) := by
  unfold execTransaction
  cases decode tr with
  | command i =>
    obtain ⟨E, -, hE⟩ := exec_effect i s
    exact ⟨E, hE⟩
  | rejected why => exact ⟨.fails (rejectStatus why), fun _ _ => rfl⟩

/-! ### Steps -/

/-- Two states whose next step serves the same host, or is idle, or is a reset event. -/
structure SameTurn (s t : State) : Prop where
  hosts : t.hosts = s.hosts
  accepted : t.accepted = s.accepted
  resetLine : t.resetLine = s.resetLine

theorem SameTurn.refl (s : State) : SameTurn s s := ⟨rfl, rfl, rfl⟩

theorem SameTurn.offered {s t : State} (h : SameTurn s t) (k : Nat) : t.offered k = s.offered k := by
  simp only [State.offered, h.hosts]

theorem SameTurn.nextHost {s t : State} (h : SameTurn s t) : t.nextHost = s.nextHost := by
  have hr : t.ready = s.ready := by
    have hc : t.hasCommand = s.hasCommand := by funext k; simp only [State.hasCommand, h.hosts]
    simp only [State.ready, h.hosts, hc]
  simp only [State.nextHost, hr, h.accepted]

/-- What a step can do, on all states at once that have the same turn and agree on what commands read: a reset event,
nothing, or an effect and the delivery of its response. -/
theorem step_effect (s : State) :
    (∀ t, SameTurn s t → step t = .next t.resetEvent) ∨
    (∀ t, SameTurn s t → step t = .next t) ∨
    (∃ (h : Nat) (E : Effect), ∀ t, SameTurn s t → SameReads s t →
      step t = .next ((E.apply (t.accept h)).deliver h)) := by
  obtain ⟨hr, -⟩ | ⟨hr, hn, -⟩ | ⟨h, tr, hr, hn, ho, -⟩ := step_cases s
  · exact .inl fun t ht => step_of_reset (ht.resetLine.trans hr)
  · exact .inr (.inl fun t ht => step_of_none (ht.resetLine.trans hr) (ht.nextHost.trans hn))
  · obtain ⟨E, hE⟩ := execTransaction_effect tr (s.accept h)
    refine .inr (.inr ⟨h, E, fun t ht hd => ?_⟩)
    rw [step_of_offered (ht.resetLine.trans hr) (ht.nextHost.trans hn) ((ht.offered h).trans ho), hE _ (hd.accept h),
      E.deliverOutcome_apply]

/-- Every step answers a next state. -/
theorem step_next (s : State) : ∃ s', step s = .next s' := by
  obtain h | h | ⟨k, E, h⟩ := step_effect s
  · exact ⟨_, h s (.refl s)⟩
  · exact ⟨_, h s (.refl s)⟩
  · exact ⟨_, h s (.refl s) (.refl s)⟩

/-! ### The invariant (10_state.md R27) -/

/-- The cache invariant survives every regeneration; it is void before INIT, and no regeneration sets INIT_DONE. -/
theorem State.CacheInv.regens {s : State} (h : s.CacheInv) (bs : List U64) : (s.regens bs).CacheInv := by
  induction bs generalizing s with
  | nil => exact h
  | cons b bs ih => exact ih fun hd => ((h.inSession hd).regen b).cacheInv hd

theorem Effect.apply_cacheInv (E : Effect) {s : State} (h : s.CacheInv) : (E.apply s).CacheInv := by
  cases E with
  | fails e => exact h
  | starts key nonce => exact (s.inSession_startSession key nonce).cacheInv
  | regenerates bs data => exact h.regens bs

/-- Settles O54: a reset event voids the cache invariant, an idle step changes nothing, and each effect keeps it and
answers a defined code; acceptance and delivery touch ports only. -/
theorem invariantIsKept : Obligations.InvariantIsKept := by
  intro s s' hs e
  obtain ⟨hc, hl⟩ := hs
  obtain h | h | ⟨k, E, h⟩ := step_effect s
  · obtain rfl : s.resetEvent = s' := by simpa [h s (.refl s)] using e
    exact ⟨fun hd => absurd hd Bool.false_ne_true, reservedCode_code .ok⟩
  · obtain rfl : s = s' := by simpa [h s (.refl s)] using e
    exact ⟨hc, hl⟩
  · obtain rfl : (E.apply (s.accept k)).deliver k = s' := by simpa [h s (.refl s) (.refl s)] using e
    have hc' : (s.accept k).CacheInv := hc
    exact ⟨E.apply_cacheInv hc', E.apply_statusLegal _⟩

/-- Settles O53: INIT_DONE is 0 at reset, so the cache invariant is void, and STATUS is 0x00. -/
theorem invariantHoldsAtReset : Obligations.InvariantHoldsAtReset :=
  ⟨fun hd => absurd hd Bool.false_ne_true, reservedCode_code .ok⟩

/-! ### STATUS and the last response (10_state.md R21) -/

theorem State.regens_withResponse (bs : List U64) (s : State) (code : Byte) (data : List Byte) :
    State.regens bs { s with status := code, respData := data } =
      { s.regens bs with status := code, respData := data } := by
  induction bs generalizing s with
  | nil => rfl
  | cons b bs ih => exact ih (s.regen b)

/-- Every effect overwrites STATUS and the response data. -/
theorem Effect.apply_withResponse (E : Effect) (s : State) (code : Byte) (data : List Byte) :
    E.apply { s with status := code, respData := data } = E.apply s := by
  cases E with
  | fails e => rfl
  | starts key nonce => rfl
  | regenerates bs out => rw [Effect.apply, State.regens_withResponse]; rfl

/-- Settles O23: no command reads STATUS or the last response, and every effect overwrites both. -/
theorem statusIsOverwritten : Obligations.StatusIsOverwritten := by
  intro i s code data
  obtain ⟨E, -, hE⟩ := exec_effect i s
  have hr : SameReads s { s with status := code, respData := data } := ⟨rfl, fun _ => ⟨rfl, rfl, rfl, rfl, rfl⟩⟩
  rw [hE _ hr, hE s (.refl s), E.apply_withResponse]

/-! ### The frame of every command (10_state.md R15, R16, R23) -/

/-- Settles O52: a failure writes the response only, a session's start writes the session registers, and regenerations
write S[10], S[11], KS and LBI. -/
theorem onlyInitWritesSessionRegisters : Obligations.OnlyInitWritesSessionRegisters := by
  intro i s t e
  obtain ⟨E, hK, hE⟩ := exec_effect i s
  obtain rfl : E.apply s = t := by simpa [hE s (.refl s)] using e
  cases E with
  | fails c => exact ⟨fun _ => ⟨rfl, rfl, rfl, rfl, fun _ _ _ => rfl⟩, rfl, rfl, rfl, rfl, rfl⟩
  | starts key nonce => exact ⟨fun hi => (hK hi).elim, rfl, rfl, rfl, rfl, rfl⟩
  | regenerates bs data =>
    exact ⟨fun _ => ⟨s.regens_N0 bs, s.regens_keyReg bs, s.regens_nonceReg bs, s.regens_initDone bs,
        s.regens_S_other bs⟩,
      s.regens_params bs, s.regens_hosts bs, s.regens_resetLine bs, s.regens_accepted bs, s.regens_resets bs⟩

/-! ### KEYREG and NONCEREG (10_state.md R22, R26) -/

theorem sameButKeyCopies_iff {s t : State} :
    SameButKeyCopies s t ↔ ∃ k n, t = { s with keyReg := k, nonceReg := n } := by
  constructor
  · exact fun h => ⟨_, _, h⟩
  · rintro ⟨k, n, rfl⟩
    rfl

theorem SameButKeyCopies.regens {s t : State} (h : SameButKeyCopies s t) (bs : List U64) :
    SameButKeyCopies (s.regens bs) (t.regens bs) := by
  induction bs generalizing s t with
  | nil => exact h
  | cons b bs ih =>
    obtain ⟨k, n, rfl⟩ := sameButKeyCopies_iff.mp h
    exact ih rfl

theorem SameButKeyCopies.apply {s t : State} (h : SameButKeyCopies s t) (E : Effect) :
    SameButKeyCopies (E.apply s) (E.apply t) := by
  obtain ⟨k, n, rfl⟩ := sameButKeyCopies_iff.mp h
  cases E with
  | fails e => rfl
  | starts key nonce => rfl
  | regenerates bs data =>
    obtain ⟨k', n', e⟩ := sameButKeyCopies_iff.mp (h.regens bs)
    rw [Effect.apply, Effect.apply, e]
    rfl

theorem SameButKeyCopies.accept {s t : State} (h : SameButKeyCopies s t) (p : Nat) :
    SameButKeyCopies (s.accept p) (t.accept p) := by
  obtain ⟨k, n, rfl⟩ := sameButKeyCopies_iff.mp h
  rfl

theorem SameButKeyCopies.deliver {s t : State} (h : SameButKeyCopies s t) (p : Nat) :
    SameButKeyCopies (s.deliver p) (t.deliver p) := by
  obtain ⟨k, n, rfl⟩ := sameButKeyCopies_iff.mp h
  rfl

/-- A reset event draws both copies anew, at equal counters. -/
theorem SameButKeyCopies.resetEvent {s t : State} (h : SameButKeyCopies s t) :
    SameButKeyCopies s.resetEvent t.resetEvent := by
  obtain ⟨k, n, rfl⟩ := sameButKeyCopies_iff.mp h
  rfl

theorem SameButKeyCopies.hosts {s t : State} (h : SameButKeyCopies s t) : s.hosts = t.hosts := by
  obtain ⟨k, n, rfl⟩ := sameButKeyCopies_iff.mp h
  rfl

theorem SameButKeyCopies.sameTurn {s t : State} (h : SameButKeyCopies s t) : SameTurn s t := by
  obtain ⟨k, n, rfl⟩ := sameButKeyCopies_iff.mp h
  exact ⟨rfl, rfl, rfl⟩

theorem SameButKeyCopies.sameReads {s t : State} (h : SameButKeyCopies s t) : SameReads s t := by
  obtain ⟨k, n, rfl⟩ := sameButKeyCopies_iff.mp h
  exact ⟨rfl, fun _ => ⟨rfl, rfl, rfl, rfl, rfl⟩⟩

/-- Settles O56: neither the choice of the host nor a command reads the copies, so both states take the same step, and
each kind of step keeps the copies the only difference. -/
theorem keyCopiesAreUnobservable : Obligations.KeyCopiesAreUnobservable := by
  intro s t hst
  obtain h | h | ⟨p, E, h⟩ := step_effect s
  · exact ⟨_, _, h s (.refl s), h t hst.sameTurn, hst.resetEvent, hst.resetEvent.hosts⟩
  · exact ⟨_, _, h s (.refl s), h t hst.sameTurn, hst, hst.hosts⟩
  · have hd := ((hst.accept p).apply E).deliver p
    exact ⟨_, _, h s (.refl s) (.refl s), h t hst.sameTurn hst.sameReads, hd, hd.hosts⟩

/-! ### Instances (10_state.md R30, 60_exceptions.md R113) -/

/-- Settles O58: every step answers a next state, which replaces the stepped entry of the platform only. -/
theorem instancesAreIndependent : Obligations.InstancesAreIndependent := by
  intro k p s hk
  obtain ⟨s', hs⟩ := step_next s
  have hlt : k < p.length := (List.getElem?_eq_some_iff.mp hk).1
  have hstep : p.stepAt k = .next (p.set k s') := by simp [Platform.stepAt, hk, hs]
  exact ⟨s', p.set k s', hs, hstep, List.length_set, List.getElem?_set_self hlt,
    fun j hj => List.getElem?_set_ne hj.symm⟩

end Sys2Proof.Machine
end

section
/-! PROOFS. The bytes of a block (20_memory.md R35, 43_block_generator.md R87, 44_byte_xor.md R93): byte `p` of a word
list written out is byte `p mod 4` of word `p div 4`. -/

namespace Sys2Proof.Machine

open Sys2Proof

@[simp] theorem unpack4_length (w : Word) : (unpack4 w).length = 4 := rfl

theorem unpack4_getElem? (w : Word) {j : Nat} (h : j < 4) : (unpack4 w)[j]? = some (wordByte w j) := by
  rw [unpack4_eq_leBytes, leBytes_getElem? _ h, wordByte_eq_ofNat]

theorem flatMap_unpack4_getElem? (ws : List Word) (p : Nat) :
    (ws.flatMap unpack4)[p]? = ws[p / 4]?.map fun w => wordByte w (p % 4) := by
  induction ws generalizing p with
  | nil => simp
  | cons w ws ih =>
    rw [List.flatMap_cons]
    by_cases h : p < 4
    · rw [List.getElem?_append_left h, unpack4_getElem? w h, Nat.div_eq_of_lt h, Nat.mod_eq_of_lt h]
      rfl
    · have hdiv : p / 4 = (p - 4) / 4 + 1 := by omega
      have hmod : p % 4 = (p - 4) % 4 := by omega
      rw [List.getElem?_append_right (by simpa using h), unpack4_length, ih, hdiv, hmod, List.getElem?_cons_succ]

@[simp] theorem blockBytes_length (KS : Words) : (blockBytes KS).length = 64 := by
  simp [blockBytes, List.length_flatMap]

/-- The byte a block's response holds at a position is the byte XOR_BYTE reads there. -/
theorem blockBytes_getElem? (KS : Words) (p : Fin 64) : (blockBytes KS)[p.val]? = some (ksByte KS p) := by
  have hw : p.val / 4 < 16 := by omega
  rw [blockBytes, flatMap_unpack4_getElem?, Vector.getElem?_toList, Vector.getElem?_eq_getElem hw]
  rfl

/-- Settles O38: `ksByte` is the byte field the statement writes out. -/
theorem blockBytesLayout : Obligations.BlockBytesLayout :=
  fun KS => ⟨blockBytes_length KS, fun p => ⟨blockBytes_getElem? KS p, blockBytes_getElem? KS p⟩⟩

end Sys2Proof.Machine
end

section
/-! PROOFS. R95's loop by index through MemRead and MemWrite (20_memory.md R33): after `i` iterations the first `i`
output bytes are final, and what is left is the recursion on the rest of the buffer. -/

namespace Sys2Proof.Machine

open Sys2Proof

theorem memRead_byte {buf : List Byte} {i : Nat} (h : i < buf.length) : memRead buf i 1 = [buf[i]] := by
  rw [memRead, List.drop_eq_getElem_cons h]
  rfl

theorem memWrite_byte {out : List Byte} {i : Nat} (h : i < out.length) (y : Byte) :
    memWrite out i 1 [y] = out.set i y := by
  simp [memWrite, List.set_eq_take_append_cons_drop, h]

/-- A byte written at index `i` is the last of the first `i + 1` bytes. -/
theorem take_succ_set {out : List Byte} {i : Nat} (h : i < out.length) (y : Byte) :
    (out.set i y).take (i + 1) = out.take i ++ [y] := by
  rw [List.take_succ_eq_append_getElem (by simpa using h), List.take_set_of_le (Nat.le_refl i), List.getElem_set_self]

/-- The remaining `n` iterations from index `i` keep the bytes before `i` and append what the recursion answers for the
bytes from `i` on. -/
theorem xorBufIndexed_eq (start : U64) (buf : List Byte) {n i : Nat} {out : List Byte} (s : State)
    (hi : i + n = buf.length) (ho : out.length = buf.length) :
    let r := xorBytes (start + BitVec.ofNat 64 i) (buf.drop i) s
    xorBufIndexed start buf n i out s = (out.take i ++ r.1, r.2) := by
  induction n generalizing i out s with
  | zero =>
    have hb : buf.drop i = [] := List.drop_eq_nil_of_le (by omega)
    have hout : out.take i = out := List.take_of_length_le (by omega)
    simp [xorBufIndexed, hb, hout, xorBytes]
  | succ n ih =>
    have hlt : i < buf.length := by omega
    have hlt' : i < out.length := by omega
    have hoff : start + BitVec.ofNat 64 i + 1 = start + BitVec.ofNat 64 (i + 1) := by
      rw [← offset_succ, add_right_comm]
    simp only [xorBufIndexed, memRead_byte hlt, List.map_cons, List.map_nil, memWrite_byte hlt']
    rw [ih _ (by omega) (by simpa using ho), take_succ_set hlt', List.drop_eq_getElem_cons hlt]
    simp only [xorBytes, xorAt, hoff, List.append_assoc, List.singleton_append]

/-- Settles O46: all iterations from index 0 keep no byte of the initial output buffer. -/
theorem bufferLoopIsIndexedLoop : Obligations.BufferLoopIsIndexedLoop := by
  intro start buf out s ho
  rw [xorBufIndexed_eq start buf s (Nat.zero_add _) ho]
  simp

end Sys2Proof.Machine
end

section
/-! PROOFS. XOR_BYTE and XOR_BUF in a session (44_byte_xor.md R97, R100): their answers are decided by the session's
key, nonce and parameters, whatever the cache holds. -/

namespace Sys2Proof.Machine

open Sys2Proof

/-- `buf` XORed with the session's keystream from offset `start` on (R97). -/
def keystreamXor (p : Params) (key : Key) (nonce : Nonce) (start : U64) (buf : List Byte) : List Byte :=
  buf.mapIdx fun i x => x ^^^ keystream p key nonce (start + BitVec.ofNat 64 i)

theorem keystreamXor_cons (p : Params) (key : Key) (nonce : Nonce) (start : U64) (x : Byte) (xs : List Byte) :
    keystreamXor p key nonce start (x :: xs) =
      (x ^^^ keystream p key nonce start) :: keystreamXor p key nonce (start + 1) xs := by
  simp only [keystreamXor, List.mapIdx_cons, BitVec.add_zero, offset_succ]

@[simp] theorem keystreamXor_singleton (p : Params) (key : Key) (nonce : Nonce) (off : U64) (x : Byte) :
    keystreamXor p key nonce off [x] = [x ^^^ keystream p key nonce off] := keystreamXor_cons p key nonce off x []

/-- In a session the loop answers the session's keystream XOR, on cache hits and misses alike. -/
theorem State.InSession.xorBytes_fst {s : State} (h : s.InSession) (start : U64) (buf : List Byte) :
    (Machine.xorBytes start buf s).1 = keystreamXor s.params s.keyReg s.nonceReg start buf := by
  induction buf generalizing start s with
  | nil => rfl
  | cons x xs ih =>
    obtain ⟨-, -, hKS⟩ := h.touch (blkOf start)
    simp only [Machine.xorBytes, xorAt]
    rw [ih (h.touch _), hKS, keystreamXor_cons]
    simp [keystream]

/-- XOR_BYTE in a session (R97). -/
theorem State.InSession.exec_xorByte {s : State} (h : s.InSession) (hd : s.initDone = true) (off : U64) (x : Byte) :
    exec (.xorByte off x) s =
      .next ((Machine.xorBytes off [x] s).2.respond [x ^^^ keystream s.params s.keyReg s.nonceReg off]) := by
  rw [exec, execXorByte_eq hd, h.xorBytes_fst, keystreamXor_singleton]

/-- XOR_BUF in a session, on a range that ends at or before 2^64 (R97). -/
theorem State.InSession.exec_xorBuf {s : State} (h : s.InSession) (hd : s.initDone = true) {start : U64}
    {buf : List Byte} (ho : offsetOverflows start buf.length = false) :
    exec (.xorBuf start buf) s = .next ((Machine.xorBytes start buf s).2.respond
      (keystreamXor s.params s.keyReg s.nonceReg start buf)) := by
  simp [exec, execXorBuf, hd, ho, h.xorBytes_fst]

/-- Two sessions with equal parameters, key and nonce; their cached blocks may differ. -/
structure SameSession (s t : State) : Prop where
  inSession : s.InSession ∧ t.InSession
  initDone : s.initDone = true ∧ t.initDone = true
  params : t.params = s.params
  keyReg : t.keyReg = s.keyReg
  nonceReg : t.nonceReg = s.nonceReg

/-- Equal sessions answer an XOR command alike. -/
theorem SameSession.xor_response {s t : State} (h : SameSession s t) {i : Instr}
    (hi : i.opcode = .xorByte ∨ i.opcode = .xorBuf) :
    ∃ s' t', exec i s = .next s' ∧ exec i t = .next t' ∧ t'.status = s'.status ∧ t'.respData = s'.respData := by
  obtain ⟨hs, ht⟩ := h.inSession
  obtain ⟨hds, hdt⟩ := h.initDone
  cases i with
  | xorByte off x =>
    refine ⟨_, _, hs.exec_xorByte hds off x, ht.exec_xorByte hdt off x, rfl, ?_⟩
    simp [h.params, h.keyReg, h.nonceReg]
  | xorBuf start buf =>
    cases ho : offsetOverflows start buf.length with
    | true => exact ⟨s.raise .offsetOverflow, t.raise .offsetOverflow, by simp [exec, execXorBuf, hds, ho],
        by simp [exec, execXorBuf, hdt, ho], rfl, rfl⟩
    | false =>
      refine ⟨_, _, hs.exec_xorBuf hds ho, ht.exec_xorBuf hdt ho, rfl, ?_⟩
      simp [h.params, h.keyReg, h.nonceReg]
  | _ => simp [Instr.opcode] at hi

end Sys2Proof.Machine
end

section
/-! PROOFS. A command run twice (20_memory.md R41). INIT, GEN and ADVANCE have an effect that overwrites what it wrote
before; XOR_BYTE and XOR_BUF keep the session, and the session decides their answer. -/

namespace Sys2Proof.Machine

open Sys2Proof

/-- A regeneration overwrites the one before (41_block_index_update.md R67). -/
@[simp] theorem State.regen_regen (b c : U64) (s : State) : (s.regen c).regen b = s.regen b := by
  simp [State.regen, State.setBlock]

theorem State.regens_regen (bs : List U64) (b : U64) (s : State) : (s.regens bs).regen b = s.regen b := by
  induction bs generalizing s with
  | nil => rfl
  | cons c bs ih => rw [State.regens_cons, ih, State.regen_regen]

/-- Of several regenerations in a row the last alone is left. -/
theorem State.regens_concat (bs : List U64) (b : U64) (s : State) : s.regens (bs ++ [b]) = s.regen b := by
  rw [State.regens, List.foldl_append]
  exact s.regens_regen bs b

/-- Every effect is idempotent: nothing it writes depends on what it overwrites, and of the blocks it regenerates the
last alone is left. -/
theorem Effect.apply_apply (E : Effect) (s : State) : E.apply (E.apply s) = E.apply s := by
  cases E with
  | fails e => rfl
  | starts key nonce => rfl
  | regenerates bs data =>
    obtain rfl | ⟨bs, b, rfl⟩ := bs.eq_nil_or_concat'
    · rfl
    · simp only [Effect.apply, State.regens_concat]
      calc (((s.regen b).respond data).regen b).respond data
          = (((s.regen b).regen b).respond data).respond data := rfl
        _ = (s.regen b).respond data := by rw [State.regen_regen]; rfl

theorem exec_gen_of_initDone (b : U64) {s : State} (hd : s.initDone = true) :
    exec (.gen b) s = .next ((Effect.regenerates [b] (blockBytes (s.regen b).KS)).apply s) := by
  rw [exec, execGen, if_pos hd]
  rfl

theorem exec_advance_of_initDone (b : U64) {s : State} (hd : s.initDone = true) :
    exec (.advance b) s = .next ((Effect.regenerates [b] []).apply s) := by
  rw [exec, execAdvance, if_pos hd]
  rfl

/-- INIT, GEN and ADVANCE repeated have the effect they had the first time: no operand, no block and no check of theirs
depends on what they wrote. -/
theorem exec_same_effect_again {i : Instr} (hi : i.opcode = .init ∨ i.opcode = .gen ∨ i.opcode = .advance)
    (s : State) : ∃ E : Effect, exec i s = .next (E.apply s) ∧ exec i (E.apply s) = .next (E.apply (E.apply s)) := by
  cases i with
  | init key nonce =>
    obtain ⟨E, hE⟩ := execInit_effect key nonce
    exact ⟨E, hE s, hE _⟩
  | gen b =>
    have hne : (Instr.gen b).opcode ≠ .init := nofun
    cases hd : s.initDone with
    | false => exact ⟨.fails .notInitialized, exec_of_not_initDone hne hd, exec_of_not_initDone hne hd⟩
    | true =>
      refine ⟨_, exec_gen_of_initDone b hd, ?_⟩
      rw [exec_gen_of_initDone b (by exact hd)]
      simp [Effect.apply]
  | advance b =>
    have hne : (Instr.advance b).opcode ≠ .init := nofun
    cases hd : s.initDone with
    | false => exact ⟨.fails .notInitialized, exec_of_not_initDone hne hd, exec_of_not_initDone hne hd⟩
    | true => exact ⟨_, exec_advance_of_initDone b hd, exec_advance_of_initDone b hd⟩
  | _ => simp [Instr.opcode] at hi

/-- A command other than INIT keeps the session (10_state.md R15, R27). -/
theorem exec_keeps_session {i : Instr} {s t : State} (hi : i.opcode ≠ .init) (hc : s.CacheInv)
    (hd : s.initDone = true) (e : exec i s = .next t) : SameSession s t := by
  have hct : t.CacheInv := by
    obtain ⟨E, -, hE⟩ := exec_effect i s
    obtain rfl : E.apply s = t := by simpa [hE s (.refl s)] using e
    exact E.apply_cacheInv hc
  obtain ⟨hframe, hparams, -⟩ := onlyInitWritesSessionRegisters i s t e
  obtain ⟨-, hkey, hnonce, hdone, -⟩ := hframe hi
  have hdt : t.initDone = true := hdone.trans hd
  exact ⟨⟨hc.inSession hd, hct.inSession hdt⟩, ⟨hd, hdt⟩, hparams, hkey, hnonce⟩

/-- XOR_BYTE and XOR_BUF repeated answer alike: the session is the same, whatever block the cache now holds. -/
theorem exec_xor_same_response_again {i : Instr} {s t : State} (hi : i.opcode = .xorByte ∨ i.opcode = .xorBuf)
    (hc : s.CacheInv) (e : exec i s = .next t) :
    ∃ u, exec i t = .next u ∧ u.status = t.status ∧ u.respData = t.respData := by
  have hne : i.opcode ≠ .init := fun h => by simp [h] at hi
  cases hd : s.initDone with
  | false =>
    obtain rfl : s.raise .notInitialized = t := by simpa [exec_of_not_initDone hne hd] using e
    exact ⟨_, exec_of_not_initDone hne hd, rfl, rfl⟩
  | true =>
    obtain ⟨t', u, ht', hu, hstatus, hdata⟩ := (exec_keeps_session hne hc hd e).xor_response hi
    obtain rfl : t' = t := by simpa [ht'] using e
    exact ⟨u, hu, hstatus, hdata⟩

/-- Settles O43: the first three commands have one effect twice, and effects are idempotent; the XOR commands answer
what the session decides, or fail twice. -/
theorem commandsAreIdempotent : Obligations.CommandsAreIdempotent := by
  refine fun i s t e => ⟨fun hi => ?_, fun hi hc => exec_xor_same_response_again hi hc e⟩
  obtain ⟨E, hs, ht⟩ := exec_same_effect_again hi s
  obtain rfl : E.apply s = t := by simpa [hs] using e
  rw [ht, E.apply_apply]

end Sys2Proof.Machine
end

section
/-! PROOFS. A step that serves a host, port by port (20_memory.md R40, R44; 30_encoding.md R55). -/

namespace Sys2Proof.Machine

open Sys2Proof

@[simp] theorem Effect.apply_hosts (E : Effect) (s : State) : (E.apply s).hosts = s.hosts := by
  cases E with
  | regenerates bs data => exact s.regens_hosts bs
  | _ => rfl

@[simp] theorem Effect.apply_accepted (E : Effect) (s : State) : (E.apply s).accepted = s.accepted := by
  cases E with
  | regenerates bs data => exact s.regens_accepted bs
  | _ => rfl

@[simp] theorem Effect.apply_resetLine (E : Effect) (s : State) : (E.apply s).resetLine = s.resetLine := by
  cases E with
  | regenerates bs data => exact s.regens_resetLine bs
  | _ => rfl

theorem State.offered_eq_some {s : State} {h : Nat} {t : Transaction} :
    s.offered h = some t ↔ ∃ p rest, s.hosts[h]? = some p ∧ p.script = t :: rest := by
  simp [State.offered, Option.bind_eq_some_iff, List.head?_eq_some_iff]

/-- Accepting host `h`'s command and delivering the response replaces that host's port: one command less to issue, one
response more received. -/
theorem modify_accept_deliver {hosts : List HostPort} {h : Nat} {p : HostPort} {t : Transaction}
    {rest : List Transaction} (hp : hosts[h]? = some p) (hs : p.script = t :: rest) (r : Response) :
    (hosts.modify h fun q => { q with script := q.script.tail }).modify h
      (fun q => { q with received := q.received ++ [r] }) = hosts.set h ⟨rest, p.received ++ [r]⟩ := by
  rw [List.modify_modify_eq, List.modify_eq_set_getElem?, hp]
  simp [hs]

theorem Effect.deliver_hosts (E : Effect) {s : State} {h : Nat} {p : HostPort} {t : Transaction}
    {rest : List Transaction} (hp : s.hosts[h]? = some p) (hs : p.script = t :: rest) :
    ((E.apply (s.accept h)).deliver h).hosts =
      s.hosts.set h ⟨rest, p.received ++ [(E.apply (s.accept h)).response]⟩ := by
  rw [State.deliver_hosts, Effect.apply_hosts, State.accept_hosts, modify_accept_deliver hp hs]

/-- A step that serves host `h`: the effect of its next transaction, with the response at the end of its port. -/
theorem step_of_port {s : State} {h : Nat} {p : HostPort} {t : Transaction} {rest : List Transaction}
    (hr : s.resetLine = false) (hn : s.nextHost = some h) (hp : s.hosts[h]? = some p) (hs : p.script = t :: rest) :
    ∃ E : Effect, execTransaction t (s.accept h) = .next (E.apply (s.accept h)) ∧
      step s = .next ((E.apply (s.accept h)).deliver h) := by
  obtain ⟨E, hE⟩ := execTransaction_effect t (s.accept h)
  have ho : s.offered h = some t := State.offered_eq_some.mpr ⟨p, rest, hp, hs⟩
  refine ⟨E, hE _ (.refl _), ?_⟩
  rw [step_of_offered hr hn ho, hE _ (.refl _), E.deliverOutcome_apply]

/-- A host with a command makes some host ready, so the scheduler picks one. -/
theorem State.exists_nextHost {s : State} (h : ∃ p ∈ s.hosts, p.script ≠ []) : ∃ k, s.nextHost = some k := by
  obtain ⟨p, hp, hs⟩ := h
  obtain ⟨k, hk⟩ := List.mem_iff_getElem?.mp hp
  obtain ⟨t, rest, hscript⟩ := List.exists_cons_of_ne_nil hs
  have hready : k ∈ s.ready := State.mem_ready.mpr ⟨t, State.offered_eq_some.mpr ⟨p, rest, hk, hscript⟩⟩
  rw [← Option.ne_none_iff_exists', Ne, State.nextHost_eq_none]
  exact List.ne_nil_of_mem hready

/-- Settles O16: the scheduler picks a host with a command, and the step replaces that host's port only. -/
theorem eachStepServesOneHost : Obligations.EachStepServesOneHost := by
  intro s hr hex
  obtain ⟨h, hn⟩ := State.exists_nextHost hex
  obtain ⟨t, ho⟩ := State.nextHost_offers hn
  obtain ⟨p, rest, hp, hs⟩ := State.offered_eq_some.mp ho
  obtain ⟨E, -, hstep⟩ := step_of_port hr hn hp hs
  exact ⟨h, p, t, rest, _, hp, hs, hstep, E.deliver_hosts hp hs, by simp, by simp [hr]⟩

/-! ### An XOR_BYTE answer under every interleaving (70_reset_and_hazards.md R122) -/

/-- The decoder reads an encoded XOR_BYTE back (30_encoding.md R53). -/
theorem decode_encode_xorByte (off : U64) (x : Byte) :
    decode (encode (.xorByte off x)) = .command (.xorByte off x) := by
  have hw : decodeWord (encodeWord (.xorByte off x)) = some .xorByte := Laws.EncodedWord.xorByte off x rfl
  have hoff : u64At (bytesOfU64 off ++ [x]) 0 = off := by
    rw [u64At, List.drop_zero, List.take_left' (bytesOfU64_length off), u64OfBytes_bytesOfU64]
  simp [decode, encode, hw, encodePayload, payloadFits, operands, hoff]

/-- Settles O57: whatever host is picked, its XOR_BYTE runs in a state of the session, whose keystream decides the one
response delivered. -/
theorem xorAnswerUnderAnyInterleaving : Obligations.XorAnswerUnderAnyInterleaving := by
  intro s h p rest off x hc hd hr hn hp hs
  obtain ⟨E, hE, hstep⟩ := step_of_port hr hn hp hs
  have hsession : (s.accept h).InSession := hc.inSession hd
  have hlt : h < s.hosts.length := (List.getElem?_eq_some_iff.mp hp).1
  refine ⟨_, hstep, ?_⟩
  rw [execTransaction, decode_encode_xorByte] at hE
  have hans := (hsession.exec_xorByte hd off x).symm.trans hE
  rw [Host.Outcome.next.injEq] at hans
  rw [E.deliver_hosts hp hs, List.getElem?_set_self hlt, ← hans]
  rfl

end Sys2Proof.Machine
end

section
/-! PROOFS. The decoder (30_encoding.md R46 to R59) said once: what it answers, which words name which opcode, what the
u64 fields of a payload hold, and which payloads fit. -/

namespace Sys2Proof

open Sys2Proof.Machine

/-! ### What the decoder answers -/

theorem decode_of_fits {op : Opcode} {w : Word} {p : List Byte} (hw : decodeWord w = some op)
    (hf : payloadFits op w p = true) : decode ⟨w, p⟩ = .command (operands op w p) := by
  simp [decode, hw, hf]

/-- An illegal word, or a legal word with a payload that does not fit, or a command (R57, R58). -/
theorem decode_cases (t : Transaction) :
    (decodeWord t.word = none ∧ decode t = .rejected .illegalCommand) ∨
    (∃ op, decodeWord t.word = some op ∧ payloadFits op t.word t.payload = false ∧
      decode t = .rejected .malformedPayload) ∨
    (∃ op, decodeWord t.word = some op ∧ payloadFits op t.word t.payload = true ∧
      decode t = .command (operands op t.word t.payload)) := by
  cases hw : decodeWord t.word with
  | none => exact .inl ⟨rfl, by simp [decode, hw]⟩
  | some op =>
    cases hf : payloadFits op t.word t.payload with
    | false => exact .inr (.inl ⟨op, rfl, hf, by simp [decode, hw, hf]⟩)
    | true => exact .inr (.inr ⟨op, rfl, hf, decode_of_fits hw hf⟩)

/-- A command was read: the word names its opcode, the payload fits, and the operands are those of the payload. -/
theorem decode_eq_command {t : Transaction} {i : Instr} (h : decode t = .command i) :
    ∃ op, decodeWord t.word = some op ∧ payloadFits op t.word t.payload = true ∧
      operands op t.word t.payload = i := by
  obtain ⟨-, e⟩ | ⟨op, -, -, e⟩ | ⟨op, hw, hf, e⟩ := decode_cases t
  · simp [e] at h
  · simp [e] at h
  · exact ⟨op, hw, hf, by simpa [e] using h⟩

theorem decode_eq_illegal_iff {t : Transaction} :
    decode t = .rejected .illegalCommand ↔ decodeWord t.word = none := by
  obtain ⟨hw, e⟩ | ⟨op, hw, -, e⟩ | ⟨op, hw, -, e⟩ := decode_cases t <;> simp [hw, e]

theorem decode_eq_malformed_iff {t : Transaction} {op : Opcode} (hw : decodeWord t.word = some op) :
    decode t = .rejected .malformedPayload ↔ ¬ payloadFits op t.word t.payload = true := by
  simp [decode, hw]

/-! ### Which words name which opcode -/

/-- The OPC byte of an opcode (R49). -/
def Opcode.code : Opcode → Byte
  | .init => 0x01
  | .gen => 0x02
  | .genNext => 0x03
  | .advance => 0x04
  | .xorByte => 0x05
  | .xorBuf => 0x06

/-- The reserved bits of an opcode's word: 15:8 of an INIT word, 31:8 of any other (R47, R48). -/
def Opcode.ReservedClear : Opcode → Word → Prop
  | .init, w => w.extractLsb' 8 8 = 0
  | _, w => w.extractLsb' 8 24 = 0

/-- The fields of an INIT word, as a condition on the word's number: KLEN and NLEN are free. -/
theorem init_fields_iff (w : Word) :
    w.extractLsb' 0 8 = Opcode.init.code ∧ Opcode.init.ReservedClear w ↔ w.toNat % 65536 = 1 := by
  obtain ⟨h0, h8, -, -, -, -⟩ := word_fields w
  simp only [Opcode.code, Opcode.ReservedClear, BitVec.toNat_eq, h0, h8, BitVec.ofNat_eq_ofNat, BitVec.toNat_ofNat]
  omega

/-- The fields of any other word leave no bit free. -/
theorem fields_iff {op : Opcode} (hop : op ≠ .init) (w : Word) :
    w.extractLsb' 0 8 = op.code ∧ op.ReservedClear w ↔ w.toNat = op.code.toNat := by
  obtain ⟨h0, -, -, -, h24, -⟩ := word_fields w
  have hcode := op.code.isLt
  have hres : op.ReservedClear w ↔ w.toNat / 256 = 0 := by
    have hzero : w.extractLsb' 8 24 = 0 ↔ w.toNat / 256 = 0 := by rw [← h24]; exact BitVec.toNat_eq
    cases op with
    | init => exact absurd rfl hop
    | _ => exact hzero
  rw [hres, BitVec.toNat_eq, h0]
  omega

/-- A word names an opcode exactly when OPC holds its code and its reserved bits are zero. -/
theorem decodeWord_eq_some_iff {w : Word} {op : Opcode} :
    decodeWord w = some op ↔ w.extractLsb' 0 8 = op.code ∧ op.ReservedClear w := by
  obtain rfl | hop := eq_or_ne op .init
  · rw [init_fields_iff, decodeWord_eq]
    split_ifs <;> simp_all
  · rw [fields_iff hop, decodeWord_eq]
    cases op with
    | init => exact absurd rfl hop
    | _ =>
      simp only [Opcode.code, BitVec.ofNat_eq_ofNat, BitVec.toNat_ofNat]
      split_ifs <;> simp <;> omega

/-- A word is determined by the opcode it names and, for INIT, by KLEN and NLEN: no other bit is free (R60). -/
theorem word_eq_of_decodeWord {w w' : Word} {op : Opcode} (h : decodeWord w = some op) (h' : decodeWord w' = some op)
    (hlen : op = .init → klenOf w = klenOf w' ∧ nlenOf w = nlenOf w') : w = w' := by
  rw [decodeWord_eq_some_iff] at h h'
  apply BitVec.eq_of_toNat_eq
  by_cases hop : op = .init
  · obtain ⟨hk, hn⟩ := hlen hop
    rw [hop, init_fields_iff] at h h'
    rw [klenOf_eq, klenOf_eq] at hk
    rw [nlenOf_eq, nlenOf_eq] at hn
    omega
  · rw [fields_iff hop] at h h'
    rw [h, h']

/-- Illegal words, by their number. -/
theorem decodeWord_eq_none_iff_toNat (w : Word) :
    decodeWord w = none ↔ w.toNat % 65536 ≠ 1 ∧ ¬ (2 ≤ w.toNat ∧ w.toNat ≤ 6) := by
  rw [decodeWord_eq]
  split_ifs <;> simp <;> omega

/-- Illegal words, by their fields (R57). -/
theorem decodeWord_eq_none_iff (w : Word) :
    decodeWord w = none ↔
      w.extractLsb' 0 8 = 0x00 ∨ 0x07 ≤ (w.extractLsb' 0 8).toNat ∨
      (w.extractLsb' 0 8 = 0x01 ∧ w.extractLsb' 8 8 ≠ 0) ∨
      (w.extractLsb' 0 8 ≠ 0x01 ∧ w.extractLsb' 8 24 ≠ 0) := by
  obtain ⟨h0, h8, -, -, h24, -⟩ := word_fields w
  rw [decodeWord_eq_none_iff_toNat]
  simp only [ne_eq, BitVec.toNat_eq, h0, h8, h24, BitVec.toNat_ofNat, BitVec.ofNat_eq_ofNat]
  omega

/-! ### The u64 fields of a payload (R51) -/

theorem u64At_eq {p : List Byte} {pos : Nat} {v : U64}
    (h : ∀ j, j < 8 → p[pos + j]? = some (v.extractLsb' (8 * j) 8)) : u64At p pos = v := by
  have hlast : pos + 7 < p.length := (List.getElem?_eq_some_iff.mp (h 7 (by decide))).1
  refine u64OfBytes_eq (by simp; omega) fun j hj => ?_
  rw [List.getElem?_take_of_lt hj, List.getElem?_drop, h j hj]

theorem bytesOfU64_u64At {p : List Byte} {pos : Nat} (h : pos + 8 ≤ p.length) :
    bytesOfU64 (u64At p pos) = (p.drop pos).take 8 :=
  bytesOfU64_u64OfBytes (by simp; omega)

theorem getElem?_eq_u64At {p : List Byte} {pos j : Nat} (h : pos + 8 ≤ p.length) (hj : j < 8) :
    p[pos + j]? = some ((u64At p pos).extractLsb' (8 * j) 8) := by
  rw [← bytesOfU64_getElem? _ hj, bytesOfU64_u64At h, List.getElem?_take_of_lt hj, List.getElem?_drop]

/-- A leading u64 operand, bit field by bit field. -/
theorem getElem?_eq_u64At_zero {p : List Byte} (h : 8 ≤ p.length) :
    ∀ j, j < 8 → p[j]? = some ((u64At p 0).extractLsb' (8 * j) 8) := fun j hj => by
  rw [← getElem?_eq_u64At (by omega) hj, Nat.zero_add]

@[simp] theorem u64At_bytesOfU64_append (v : U64) (q : List Byte) : u64At (bytesOfU64 v ++ q) 0 = v := by
  rw [u64At, List.drop_zero, List.take_left' (bytesOfU64_length v), u64OfBytes_bytesOfU64]

theorem u64At_append_right {p : List Byte} {n : Nat} (h : p.length = n) (q : List Byte) :
    u64At (p ++ q) n = u64At q 0 := by
  rw [u64At, List.drop_left' h]
  rfl

/-! ### Which payloads fit (R58) -/

/-- An XOR_BUF payload fits exactly when bytes 8 to 15 are those of a LEN and LEN bytes follow (R54). -/
theorem payloadFits_xorBuf_iff {w : Word} {p : List Byte} :
    payloadFits .xorBuf w p = true ↔ 16 ≤ p.length ∧
      ∃ len : U64, (∀ j, j < 8 → p[8 + j]? = some (len.extractLsb' (8 * j) 8)) ∧ p.length = 16 + len.toNat := by
  simp only [payloadFits, lenOf, Bool.and_eq_true, decide_eq_true_eq, beq_iff_eq, and_congr_right_iff]
  refine fun h16 => ⟨fun hlen => ⟨u64At p 8, fun j hj => getElem?_eq_u64At h16 hj, hlen⟩, ?_⟩
  rintro ⟨len, hbytes, hlen⟩
  rw [u64At_eq hbytes, hlen]

end Sys2Proof
end

section
/-! PROOFS. The encoder and the decoder are inverse to each other (30_encoding.md R60), and each payload form decodes to
its command (R50 to R54). -/

namespace Sys2Proof

open Sys2Proof.Machine

/-! ### Decoding what was encoded -/

theorem Instr.wf_init {key nonce : List Byte} :
    (Instr.init key nonce).wf = true ↔ key.length ≤ 255 ∧ nonce.length ≤ 255 := by
  simp [Instr.wf]

theorem klenOf_encodeWord_init {key nonce : List Byte} (h : (Instr.init key nonce).wf = true) :
    klenOf (encodeWord (.init key nonce)) = key.length := by
  obtain ⟨hk, hn⟩ := Instr.wf_init.mp h
  rw [klenOf_eq, encodeWord_init_toNat hk hn]
  omega

theorem nlenOf_encodeWord_init {key nonce : List Byte} (h : (Instr.init key nonce).wf = true) :
    nlenOf (encodeWord (.init key nonce)) = nonce.length := by
  obtain ⟨hk, hn⟩ := Instr.wf_init.mp h
  rw [nlenOf_eq, encodeWord_init_toNat hk hn]
  omega

theorem decodeWord_encodeWord {i : Instr} (h : i.wf = true) : decodeWord (encodeWord i) = some i.opcode := by
  cases i with
  | init key nonce => exact Laws.EncodedWord.init key nonce h
  | gen b => exact Laws.EncodedWord.gen b h
  | genNext => exact Laws.EncodedWord.genNext h
  | advance b => exact Laws.EncodedWord.advance b h
  | xorByte off x => exact Laws.EncodedWord.xorByte off x h
  | xorBuf start buf => exact Laws.EncodedWord.xorBuf start buf h

/-- An encoded XOR_BUF payload holds the buffer's length in LEN, which has room for it (R54). -/
theorem lenOf_encodePayload_xorBuf {start : U64} {buf : List Byte} (h : (Instr.xorBuf start buf).wf = true) :
    lenOf (encodePayload (.xorBuf start buf)) = buf.length := by
  have hlt : buf.length < 2 ^ 64 := by simpa [Instr.wf] using h
  rw [lenOf, encodePayload, List.append_assoc, u64At_append_right (bytesOfU64_length start),
    u64At_bytesOfU64_append, BitVec.toNat_ofNat, Nat.mod_eq_of_lt hlt]

theorem payloadFits_encodePayload {i : Instr} (h : i.wf = true) :
    payloadFits i.opcode (encodeWord i) (encodePayload i) = true := by
  cases i with
  | init key nonce =>
    simp [Instr.opcode, payloadFits, encodePayload, klenOf_encodeWord_init h, nlenOf_encodeWord_init h]
  | gen b => simp [Instr.opcode, payloadFits, encodePayload]
  | genNext => rfl
  | advance b => simp [Instr.opcode, payloadFits, encodePayload]
  | xorByte off x => simp [Instr.opcode, payloadFits, encodePayload]
  | xorBuf start buf =>
    have hlen : (encodePayload (.xorBuf start buf)).length = 16 + buf.length := by
      simp [encodePayload, ← Nat.add_assoc]
    simp [Instr.opcode, payloadFits, lenOf_encodePayload_xorBuf h, hlen]

theorem operands_encodePayload {i : Instr} (h : i.wf = true) :
    operands i.opcode (encodeWord i) (encodePayload i) = i := by
  cases i with
  | init key nonce => simp [Instr.opcode, operands, encodePayload, klenOf_encodeWord_init h]
  | gen b => simpa [Instr.opcode, operands, encodePayload] using u64At_bytesOfU64_append b []
  | genNext => rfl
  | advance b => simpa [Instr.opcode, operands, encodePayload] using u64At_bytesOfU64_append b []
  | xorByte off x => simp [Instr.opcode, operands, encodePayload]
  | xorBuf start buf =>
    have hbuf : (bytesOfU64 start ++ bytesOfU64 (BitVec.ofNat 64 buf.length) ++ buf).drop 16 = buf :=
      List.drop_left' (by simp)
    rw [Instr.opcode, operands, encodePayload, hbuf, List.append_assoc, u64At_bytesOfU64_append]

/-- Settles O1: the word names the command's opcode, its payload fits, and the operands are read back. -/
theorem decodeEncodeIsIdentity : Obligations.DecodeEncodeIsIdentity := by
  intro i h
  rw [encode, decode_of_fits (decodeWord_encodeWord h) (payloadFits_encodePayload h), operands_encodePayload h]

/-! ### Encoding what was decoded -/

@[simp] theorem operands_opcode (op : Opcode) (w : Word) (p : List Byte) : (operands op w p).opcode = op := by
  cases op <;> rfl

theorem wf_operands {op : Opcode} {w : Word} {p : List Byte} (h : payloadFits op w p = true) :
    (operands op w p).wf = true := by
  cases op with
  | init =>
    have hk : klenOf w < 256 := BitVec.isLt _
    have hn : nlenOf w < 256 := BitVec.isLt _
    simp only [payloadFits, beq_iff_eq] at h
    rw [operands, Instr.wf_init, List.length_take, List.length_drop]
    omega
  | xorBuf =>
    obtain ⟨-, len, -, hlen⟩ := payloadFits_xorBuf_iff.mp h
    have := len.isLt
    have hlt : (p.drop 16).length < 2 ^ 64 := by rw [List.length_drop]; omega
    simpa [operands, Instr.wf] using hlt
  | _ => rfl

theorem encodePayload_operands {op : Opcode} {w : Word} {p : List Byte} (h : payloadFits op w p = true) :
    encodePayload (operands op w p) = p := by
  cases op with
  | init => exact List.take_append_drop ..
  | gen | advance =>
    have hlen : p.length = 8 := by simpa [payloadFits] using h
    rw [operands, encodePayload, bytesOfU64_u64At (by omega), List.drop_zero, List.take_of_length_le (by omega)]
  | genNext =>
    have hp : p = [] := by simpa [payloadFits] using h
    rw [hp]
    rfl
  | xorByte =>
    have hlen : p.length = 9 := by simpa [payloadFits] using h
    have hlast : p.drop 8 = [p.getD 8 0] := by
      rw [List.drop_eq_getElem_cons (by omega), List.drop_of_length_le (by omega), List.getD_eq_getElem _ _ (by omega)]
    rw [operands, encodePayload, bytesOfU64_u64At (by omega), List.drop_zero, ← hlast, List.take_append_drop]
  | xorBuf =>
    simp only [payloadFits, Bool.and_eq_true, decide_eq_true_eq, beq_iff_eq] at h
    obtain ⟨h16, hlen⟩ := h
    have hLEN : BitVec.ofNat 64 (p.drop 16).length = u64At p 8 := by
      rw [List.length_drop, hlen, Nat.add_sub_cancel_left, lenOf, BitVec.ofNat_toNat, BitVec.setWidth_eq]
    have hrest : (p.drop 8).take 8 ++ p.drop 16 = p.drop 8 := by
      rw [← List.drop_drop (i := 8) (j := 8), List.take_append_drop]
    rw [operands, encodePayload, hLEN, bytesOfU64_u64At (by omega), bytesOfU64_u64At (by omega), List.append_assoc,
      hrest, List.drop_zero, List.take_append_drop]

theorem encodeWord_operands {op : Opcode} {w : Word} {p : List Byte} (hw : decodeWord w = some op)
    (hf : payloadFits op w p = true) : encodeWord (operands op w p) = w := by
  have hwf := wf_operands hf
  refine word_eq_of_decodeWord (by rw [decodeWord_encodeWord hwf, operands_opcode]) hw ?_
  rintro rfl
  have hlen : p.length = klenOf w + nlenOf w := by simpa [payloadFits] using hf
  rw [operands, klenOf_encodeWord_init hwf, nlenOf_encodeWord_init hwf, List.length_take, List.length_drop]
  omega

/-- Settles O2: word and payload are each the encoding of the operands read from them. -/
theorem encodeDecodedIsIdentity : Obligations.EncodeDecodedIsIdentity := by
  intro t i h
  obtain ⟨op, hw, hf, rfl⟩ := decode_eq_command h
  exact ⟨wf_operands hf, by rw [encode, encodeWord_operands hw hf, encodePayload_operands hf]⟩

/-! ### A transaction's bytes -/

/-- Settles O3: the word's bytes are its fields, and `pack4` and `unpack4` are inverse. -/
theorem transactionBytesRoundTrip : Obligations.TransactionBytesRoundTrip := by
  refine ⟨fun t => by rw [Transaction.bytes, unpack4_eq_fields], fun t => ?_, fun bs t h => ?_⟩
  · simp [Transaction.bytes, unpack4_eq_fields, Transaction.ofBytes]
  · match bs with
    | b0 :: b1 :: b2 :: b3 :: payload =>
      obtain rfl : ⟨pack4 b0 b1 b2 b3, payload⟩ = t := by simpa [Transaction.ofBytes] using h
      simp [Transaction.bytes]

/-- Settles O4, by evaluation of the six fixed transactions. -/
theorem decodesSpecTransactions : Obligations.DecodesSpecTransactions := by
  unfold Obligations.DecodesSpecTransactions
  decide

/-! ### The payload of each command -/

/-- Settles O7: the block index is the u64 field at byte 0. -/
theorem blockIndexPayload : Obligations.BlockIndexPayload := by
  intro p hp
  exact ⟨u64At p 0, getElem?_eq_u64At_zero (by omega),
    decode_of_fits (op := .gen) (by decide) (by simp [payloadFits, hp]),
    decode_of_fits (op := .advance) (by decide) (by simp [payloadFits, hp])⟩

/-- Settles O8: the offset is the u64 field at byte 0, and the operand byte is the last of the nine. -/
theorem genNextAndXorBytePayload : Obligations.GenNextAndXorBytePayload := by
  refine ⟨decode_of_fits (op := .genNext) (by decide) rfl, fun p hp => ?_⟩
  have hx : p[8]? = some (p.getD 8 0) := by
    rw [List.getD_eq_getElem _ _ (by omega), List.getElem?_eq_getElem]
  exact ⟨u64At p 0, p.getD 8 0, getElem?_eq_u64At_zero (by omega), hx,
    decode_of_fits (op := .xorByte) (by decide) (by simp [payloadFits, hp])⟩

/-- Settles O9: KLEN splits the payload into key and nonce. -/
theorem initPayload : Obligations.InitPayload := by
  intro w key nonce hw hk hn
  obtain ⟨-, -, -, -, -, h16⟩ := word_fields w
  have hop : decodeWord w = some .init := by
    rw [decodeWord_eq, if_pos]
    rw [← h16, hw]
    rfl
  have hk : key.length = klenOf w := hk
  have hn : nonce.length = nlenOf w := hn
  rw [decode_of_fits hop (by simp [payloadFits, hk, hn]), operands, List.take_left' hk, List.drop_left' hk]

/-- Settles O10: START and LEN are the two u64 fields of the header, and LEN is the buffer's length. -/
theorem xorBufPayload : Obligations.XorBufPayload := by
  intro start len h buf hh hstart hlen hbuf
  have hheader : ∀ k, k < 16 → (h ++ buf)[k]? = h[k]? := fun k hk => List.getElem?_append_left (by omega)
  have hfits : payloadFits .xorBuf 0x00000006 (h ++ buf) = true := by
    refine payloadFits_xorBuf_iff.mpr ⟨by simp [hh], len, fun j hj => ?_, by simp [hh, hbuf]⟩
    rw [hheader _ (by omega), hlen j hj]
  have hSTART : u64At (h ++ buf) 0 = start := u64At_eq fun j hj => by
    rw [Nat.zero_add, hheader _ (by omega), hstart j hj]
  rw [decode_of_fits (by decide) hfits, operands, hSTART, List.drop_left' hh]

end Sys2Proof
end

section
/-! PROOFS. Transactions at the step (30_encoding.md R57, R58; 20_memory.md R44): what a rejected one does, which ones
are rejected, and which one a step runs. -/

namespace Sys2Proof.Machine

open Sys2Proof

theorem execTransaction_of_command {t : Transaction} {i : Instr} (h : decode t = .command i) (s : State) :
    execTransaction t s = exec i s := by
  simp [execTransaction, h]

theorem execTransaction_of_rejected {t : Transaction} {why : Reject} (h : decode t = .rejected why) (s : State) :
    execTransaction t s = .next (s.raise (rejectStatus why)) := by
  simp [execTransaction, h]

/-- Settles O5: the words that name no opcode, and the error they raise. -/
theorem illegalWordsExactly : Obligations.IllegalWordsExactly :=
  fun t => ⟨decode_eq_illegal_iff.trans (decodeWord_eq_none_iff t.word), fun h => execTransaction_of_rejected h⟩

/-- Settles O6: a legal word names one opcode by its OPC byte, so one length rule of the list is left, and it is the one
the decoder tests. -/
theorem malformedPayloadsExactly : Obligations.MalformedPayloadsExactly := by
  refine fun t hlegal => ⟨?_, fun h => execTransaction_of_rejected h⟩
  obtain ⟨op, hw⟩ := Option.ne_none_iff_exists'.mp (mt decode_eq_illegal_iff.mpr hlegal)
  obtain ⟨hopc, -⟩ := decodeWord_eq_some_iff.mp hw
  rw [decode_eq_malformed_iff hw, not_iff_not, hopc]
  cases op with
  | init => simp [Opcode.code, payloadFits, klenOf, nlenOf]
  | xorBuf => simp [Opcode.code, payloadFits_xorBuf_iff]
  | _ => simp [Opcode.code, payloadFits]

/-- Settles O11: the step executes the offered transaction, which is its command or its error. -/
theorem stepRunsAcceptedCommand : Obligations.StepRunsAcceptedCommand := by
  intro s h t hr hn ho
  have hstep := step_of_offered hr hn ho
  exact ⟨fun i hd => by rw [hstep, execTransaction_of_command hd],
    fun why hd => by rw [hstep, execTransaction_of_rejected hd]⟩

/-- Under `Exclusive` (70_reset_and_hazards.md R126) a host with a command is the one chosen: nothing is drawn. -/
theorem State.Exclusive.nextHost {s : State} (e : s.Exclusive) {h : Nat} {t : Transaction}
    (ho : s.offered h = some t) : s.nextHost = some h := by
  obtain ⟨k, hsilent⟩ := e
  have only := State.ready_of_others_silent hsilent
  have hready : h ∈ s.ready := State.mem_ready.mpr ⟨t, ho⟩
  cases hn : s.nextHost with
  | none => simp [State.nextHost_eq_none.mp hn] at hready
  | some h' => rw [only h hready, only h' (State.mem_ready.mpr (State.nextHost_offers hn))]

theorem State.withFetchWord_offered (s : State) (nbits w : Nat) :
    (s.withFetchWord nbits w).offered 0 = some (tableTransaction nbits w) := by
  cases hs : s.hosts <;> simp [State.offered, State.withFetchWord, hs]

theorem decodeTableWord_eq_some {nbits w : Nat} {i : Instr} (h : decodeTableWord nbits w = some i) :
    decode (tableTransaction nbits w) = .command i := by
  unfold decodeTableWord at h
  split at h
  · next j hj => rw [hj, Option.some.inj h]
  · cases h

/-- Settles O12: host 0 offers the table word's transaction and no other host has one, so the step runs its command. -/
theorem fetchedWordIsStepped : Obligations.FetchedWordIsStepped := by
  intro s nbits w i h
  have ho := s.withFetchWord_offered nbits w
  have hn := (s.withFetchWord_exclusive nbits w).nextHost ho
  rw [step_of_offered rfl hn ho, execTransaction_of_command (decodeTableWord_eq_some h)]

/-! ### The pseudo-command KEYSTREAM (30_encoding.md R62) -/

/-- Zero bytes XORed with the keystream are the keystream bytes. -/
theorem keystreamXor_replicate_zero_getElem? (p : Params) (key : Key) (nonce : Nonce) (start : U64) {n i : Nat}
    (h : i < n) : (keystreamXor p key nonce start (List.replicate n 0))[i]? =
      some (keystream p key nonce (start + BitVec.ofNat 64 i)) := by
  simp [keystreamXor, h]

/-- Settles O51: in a session XOR_BUF answers its zero bytes XORed with the session's keystream. -/
theorem keystreamPseudoReadsKeystream : Obligations.KeystreamPseudoReadsKeystream := by
  intro start n s hc hd hrange
  have ho : offsetOverflows start (List.replicate n (0 : Byte)).length = false := by
    simpa [offsetOverflows] using hrange
  refine ⟨_, (hc.inSession hd).exec_xorBuf hd ho, by simp [keystreamXor], fun i hi => ?_⟩
  exact keystreamXor_replicate_zero_getElem? _ _ _ _ hi

end Sys2Proof.Machine
end

section
/-! PROOFS. INIT (40_initializer.md): the words of InitState byte by byte (R63 to R65), and the whole next state of INIT
on each of its three outcomes (R66). -/

namespace Sys2Proof.Machine

open Sys2Proof

/-! ### InitState (R63 to R65) -/

/-- Byte `j` of a word packed from four bytes in a row. -/
theorem wordByte_pack4_getElem {n k j : Nat} (v : Vector Byte n) (hk : k + 3 < n) (hj : j < 4) :
    wordByte (pack4 v[k] v[k + 1] v[k + 2] v[k + 3]) j = v[k + j] := by
  have hbyte := unpack4_getElem? (pack4 v[k] v[k + 1] v[k + 2] v[k + 3]) hj
  rw [unpack4_pack4] at hbyte
  match j with
  | 0 | 1 | 2 | 3 => exact (Option.some.inj hbyte).symm

theorem wordByte_keyWord (key : Key) (i : Fin 8) {j : Nat} (hj : j < 4) :
    wordByte (keyWord key i) j = key[4 * i.val + j] :=
  wordByte_pack4_getElem key (by omega) hj

theorem wordByte_nonceWord (nonce : Nonce) (i : Fin 5) {j : Nat} (hj : j < 4) :
    wordByte (nonceWord nonce i) j = nonce[4 * i.val + j] :=
  wordByte_pack4_getElem nonce (by omega) hj

theorem initState_key (key : Key) (nonce : Nonce) (i : Fin 8) : (initState key nonce)[2 + i.val] = keyWord key i := by
  match i with
  | 0 | 1 | 2 | 3 | 4 | 5 | 6 | 7 => rfl

theorem initState_low (key : Key) (nonce : Nonce) : (initState key nonce)[10] = 0 := rfl

@[simp] theorem initState_high (key : Key) (nonce : Nonce) : (initState key nonce)[11] = nonceWord nonce 0 :=
  BitVec.xor_zero

theorem initState_nonce (key : Key) (nonce : Nonce) (i : Fin 4) :
    (initState key nonce)[12 + i.val] = nonceWord nonce i.succ := by
  match i with
  | 0 | 1 | 2 | 3 => rfl

/-- Settles O25: each word of InitState is a constant, a key word or a nonce word, and the bytes of the two latter are
those they are packed from. -/
theorem initStateLayout : Obligations.InitStateLayout := by
  refine fun key nonce => ⟨show C0 = _ by decide, show C1 = _ by decide, fun i j hi hj => ?_, initState_low key nonce,
    fun j hj => ?_, fun i j hi hj => ?_⟩
  · rw [initState_key key nonce ⟨i, hi⟩]
    exact wordByte_keyWord key ⟨i, hi⟩ hj
  · rw [initState_high]
    simpa [wordByte] using wordByte_nonceWord nonce 0 hj
  · rw [initState_nonce key nonce ⟨i, hi⟩]
    have hpos : 4 + 4 * i + j = 4 * (i + 1) + j := by omega
    simp only [hpos]
    exact wordByte_nonceWord nonce (Fin.succ ⟨i, hi⟩) hj

/-! ### INIT (R66) -/

/-- InitState already holds block 0, so INIT's regeneration at block 0 keeps it (41_block_index_update.md R67). -/
@[simp] theorem injectBlock_initState (key : Key) (nonce : Nonce) :
    injectBlock (nonceWord nonce 0) 0#64 (initState key nonce) = initState key nonce := by
  have hlow : (initState key nonce)[10] = lo32 0 := initState_low key nonce
  have hhigh : (initState key nonce)[11] = nonceWord nonce 0 ^^^ hi32 0 := by simp [hi32]
  exact (eq_injectBlock hlow hhigh fun _ _ _ => rfl).symm

/-- The registers of a new session, all at once. -/
theorem State.startSession_eq (key : Key) (nonce : Nonce) (s : State) :
    s.startSession key nonce = { s with
      keyReg := key
      nonceReg := nonce
      N0 := nonceWord nonce 0
      S := initState key nonce
      KS := perm s.params (initState key nonce)
      LBI := 0
      initDone := true } := by
  simp [State.startSession, State.regen, State.setBlock]

theorem exec_init_of_lengths {key nonce : List Byte} (hk : key.length = 32) (hn : nonce.length = 20) (s : State) :
    exec (.init key nonce) s = .next ((s.startSession ⟨⟨key⟩, hk⟩ ⟨⟨nonce⟩, hn⟩).respond []) := by
  rw [exec, execInit, dif_pos hk, dif_pos hn]

theorem exec_init_of_key_length {key : List Byte} (hk : key.length ≠ 32) (nonce : List Byte) (s : State) :
    exec (.init key nonce) s = .next (s.raise .invalidKeyLength) := by
  rw [exec, execInit, dif_neg hk]

theorem exec_init_of_nonce_length {key nonce : List Byte} (hk : key.length = 32) (hn : nonce.length ≠ 20) (s : State) :
    exec (.init key nonce) s = .next (s.raise .invalidNonceLength) := by
  rw [exec, execInit, dif_pos hk, dif_neg hn]

/-- The transaction of an INIT that passes both length checks (R48, R50). -/
theorem encode_init_of_lengths {key nonce : List Byte} (hk : key.length = 32) (hn : nonce.length = 20) :
    encode (.init key nonce) = ⟨0x14200001, key ++ nonce⟩ := by
  rw [encode, encodeWord, hk, hn]
  rfl

/-- Settles O24: a case per outcome of the two length checks. -/
theorem initCompletes : Obligations.InitCompletes := by
  refine fun key nonce s => ⟨fun hk hn => ⟨encode_init_of_lengths hk hn, ?_⟩,
    fun hk => exec_init_of_key_length hk nonce s, fun hk hn => exec_init_of_nonce_length hk hn s⟩
  rw [exec_init_of_lengths hk hn, State.startSession_eq]
  rfl

end Sys2Proof.Machine
end

section
/-! PROOFS. Counter injection and offsets (41_block_index_update.md): the words a block index is injected as (R67, R68,
R71), the blocks an offset reaches (R69, R70), and the sessions whose keystreams coincide (R72). -/

namespace Sys2Proof.Machine

open Sys2Proof

/-! ### The two words of a block index (R67, R68, R71) -/

theorem hi32_append_lo32 (b : U64) : hi32 b ++ lo32 b = b := BitVec.extractLsb'_append_extractLsb'

@[simp] theorem hi32_append (h l : Word) : hi32 (h ++ l) = h := BitVec.extractLsb'_append_eq_left

@[simp] theorem lo32_append (h l : Word) : lo32 (h ++ l) = l := BitVec.extractLsb'_append_eq_right

theorem eq_of_hi32_lo32 {b c : U64} (hhi : hi32 b = hi32 c) (hlo : lo32 b = lo32 c) : b = c := by
  rw [← hi32_append_lo32 b, hhi, hlo, hi32_append_lo32]

/-- An injection is decided by the two words it writes. -/
theorem injectBlock_congr {n0 n1 : Word} {b c : U64} (hlo : lo32 b = lo32 c) (hhi : n0 ^^^ hi32 b = n1 ^^^ hi32 c)
    (S : Words) : injectBlock n0 b S = injectBlock n1 c S := by
  rw [injectBlock, injectBlock, hlo, hhi]

@[simp] theorem State.setBlock_setBlock (b c : U64) (s : State) : (s.setBlock c).setBlock b = s.setBlock b := by
  simp [State.setBlock]

/-- Settles O27: `setBlock` is the injection of the block into S, which overwrites the words of an earlier one. -/
theorem setBlockWritesTwoWords : Obligations.SetBlockWritesTwoWords :=
  fun b c s => ⟨injectBlock_low s.N0 b s.S, injectBlock_high s.N0 b s.S, injectBlock_other s.N0 b s.S, rfl,
    s.setBlock_setBlock b c⟩

/-- Settles O28: word 10 gives the low half of the block index back, and word 11 the high half once N0 is cancelled. -/
theorem counterInjectionIsInjective : Obligations.CounterInjectionIsInjective := by
  intro n0 S b b' hne heq
  obtain ⟨hlo, hhi⟩ := Prod.mk.inj heq
  rw [injectBlock_low, injectBlock_low] at hlo
  rw [injectBlock_high, injectBlock_high, BitVec.xor_right_inj] at hhi
  exact hne (eq_of_hi32_lo32 hhi hlo)

/-- Settles O29: the halves of the three block indices. -/
theorem counterBoundaryValues : Obligations.CounterBoundaryValues := by
  intro n0 S
  simp [injectBlock_low, injectBlock_high, lo32, hi32]

/-! ### Offsets (R69, R70) -/

/-- Every offset lies in a block below 2^58 (R69). -/
theorem blkOf_lt (off : U64) : (blkOf off).toNat < 2 ^ 58 := by
  rw [blkOf_toNat]
  omega

theorem posOf_eq_and (off : U64) : (posOf off).val = (off &&& 63).toNat := by
  rw [BitVec.toNat_and]
  exact (Nat.and_two_pow_sub_one_eq_mod off.toNat 6).symm

/-- Settles O30: the division, and the bound it gives a 64-bit offset. -/
theorem offsetSplit : Obligations.OffsetSplit :=
  fun off => ⟨blkOf_toNat off, rfl, Nat.le_sub_one_of_lt (blkOf_lt off), rfl, posOf_eq_and off⟩

theorem hi32_toNat (b : U64) : (hi32 b).toNat = b.toNat / 2 ^ 32 := by
  rw [hi32, BitVec.extractLsb'_toNat, Nat.shiftRight_eq_div_pow]
  omega

/-- The XOR loop leaves the cache at the block it held, or at a block that an offset selects. -/
theorem xorBytes_LBI_cases (start : U64) (buf : List Byte) (s : State) :
    (xorBytes start buf s).2.LBI = s.LBI ∨ ∃ off, (xorBytes start buf s).2.LBI = blkOf off := by
  induction buf generalizing start s with
  | nil => exact .inl rfl
  | cons x xs ih =>
    obtain hkept | hmoved := ih (start + 1) (s.touch (blkOf start))
    · exact .inr ⟨start, hkept.trans (s.touch_LBI _)⟩
    · exact .inr hmoved

/-- What a completed XOR command leaves in LBI: it fails and keeps the block, or its loop ran. -/
theorem exec_xor_LBI_cases {i : Instr} {s t : State} (hi : i.opcode = .xorByte ∨ i.opcode = .xorBuf)
    (h : exec i s = .next t) : t.LBI = s.LBI ∨ ∃ start buf, t.LBI = (xorBytes start buf s).2.LBI := by
  cases hd : s.initDone with
  | false =>
    rw [exec_of_not_initDone (by rintro e; simp [e] at hi) hd] at h
    cases h
    exact .inl rfl
  | true =>
    cases i with
    | xorByte off x =>
      rw [exec, execXorByte_eq hd] at h
      cases h
      exact .inr ⟨off, [x], rfl⟩
    | xorBuf start buf =>
      rw [exec, execXorBuf, if_pos hd] at h
      split at h <;> cases h
      · exact .inl rfl
      · exact .inr ⟨start, buf, rfl⟩
    | _ => simp [Instr.opcode] at hi

/-- Settles O31: an XOR command leaves LBI alone or at the block of an offset, which is below 2^58. -/
theorem offsetsReachLowBlocksOnly : Obligations.OffsetsReachLowBlocksOnly := by
  intro i s t hi h
  obtain hkept | ⟨start, buf, hloop⟩ := exec_xor_LBI_cases hi h
  · exact .inl hkept
  · rw [hloop]
    refine (xorBytes_LBI_cases start buf s).imp_right fun ⟨off, hoff⟩ => ?_
    rw [hoff, hi32_toNat]
    have hlt := blkOf_lt off
    omega

/-! ### Nonces that agree in bytes 4 to 19 (R72) -/

section
variable {n n' : Nonce} (hn : ∀ i : Fin 20, 4 ≤ i.val → n[i] = n'[i])
include hn

theorem nonceWord_congr (j : Fin 5) (hj : 1 ≤ j.val) : nonceWord n j = nonceWord n' j := by
  have hbyte {k : Nat} (hk : k < 20) (h4 : 4 ≤ k) : n[k] = n'[k] := hn ⟨k, hk⟩ h4
  rw [nonceWord, nonceWord, hbyte (k := 4 * j.val) (by omega) (by omega),
    hbyte (k := 4 * j.val + 1) (by omega) (by omega), hbyte (k := 4 * j.val + 2) (by omega) (by omega),
    hbyte (k := 4 * j.val + 3) (by omega) (by omega)]

/-- Only word 11 of InitState reads nonce bytes 0 to 3 (40_initializer.md R65): the word block 0 is injected into. -/
theorem initState_eq_injectBlock (key : Key) :
    initState key n = injectBlock (nonceWord n 0) 0 (initState key n') := by
  have hword := nonceWord_congr hn
  simp only [initState, hword 1 (by decide), hword 2 (by decide), hword 3 (by decide), hword 4 (by decide)]
  rfl

/-- Word 11 is the XOR of the first nonce word and the high half of the block index, so a difference in the one is
undone by the same difference in the other. -/
theorem sessionWords_alias (key : Key) (b : U64) : sessionWords key n b =
    sessionWords key n' ((hi32 b ^^^ (nonceWord n 0 ^^^ nonceWord n' 0)) ++ lo32 b) := by
  rw [sessionWords, initState_eq_injectBlock hn, injectBlock_injectBlock]
  refine injectBlock_congr (lo32_append _ _).symm ?_ _
  rw [hi32_append]
  calc nonceWord n 0 ^^^ hi32 b
      = (nonceWord n' 0 ^^^ nonceWord n' 0) ^^^ (nonceWord n 0 ^^^ hi32 b) := by
        rw [BitVec.xor_self, BitVec.zero_xor]
    _ = nonceWord n' 0 ^^^ (hi32 b ^^^ (nonceWord n 0 ^^^ nonceWord n' 0)) := by ac_rfl

end

/-- Settles O32: the two sessions have the same state words, and the permutation reads nothing else. -/
theorem crossNonceAliasing : Obligations.CrossNonceAliasing :=
  fun p key _ _ b hn => ⟨sessionWords_alias hn key b, congrArg (perm p) (sessionWords_alias hn key b)⟩

end Sys2Proof.Machine
end

section
/-! PROOFS. The round function (42_round_function.md): the rotation bit by bit (R73), what a Shuffle writes and what it
leaves alone (R76 to R78), the permutation round by round (R79, R82) and the default schedule (R80). -/

namespace Sys2Proof.Machine

open Sys2Proof

/-! ### Rotation (R73) -/

/-- The bits below the rotation amount come round from the top of the word. -/
theorem rotl32_getLsbD_of_lt (x : Word) {n i : Nat} (h : i < n) :
    (rotl32 x n).getLsbD i = x.getLsbD (32 - n + i) := by
  simp [rotl32, h]

/-- The other bits move up by the rotation amount. -/
theorem rotl32_getLsbD_of_le (x : Word) {n i : Nat} (hi : i < 32) (h : n ≤ i) :
    (rotl32 x n).getLsbD i = x.getLsbD (i - n) := by
  have hout : 32 ≤ 32 - n + i := by omega
  simp only [rotl32, BitVec.getLsbD_or, BitVec.getLsbD_shiftLeft, BitVec.getLsbD_ushiftRight,
    BitVec.getLsbD_of_ge x _ hout]
  simp [hi, h]

@[simp] theorem rotl32_zero (n : Nat) : rotl32 0#32 n = 0#32 := by simp [rotl32]

/-- Settles O33: a bit comes round from the top of the word or moves up, as its place is below `n` or not. -/
theorem rotationMovesBits : Obligations.RotationMovesBits := by
  intro x n h1 h31 i hi
  obtain hlt | hle := Nat.lt_or_ge i n
  · rw [rotl32_getLsbD_of_lt x hlt, show (i + 32 - n) % 32 = 32 - n + i by omega]
  · rw [rotl32_getLsbD_of_le x hi hle, show (i + 32 - n) % 32 = i - n by omega]

/-! ### Words and quadruples -/

theorem words_ext {W V : Words} (h : ∀ i : Fin 16, W[i] = V[i]) : W = V := Vector.ext fun i hi => h ⟨i, hi⟩

theorem set_words_same (W : Words) (i : Fin 16) (x : Word) : (W.set i x)[i] = x := Vector.getElem_set_self i.isLt

theorem set_words_other (W : Words) {i j : Fin 16} (h : i ≠ j) (x : Word) : (W.set i x)[j] = W[j] :=
  Vector.getElem_set_ne i.isLt j.isLt (Fin.val_ne_of_ne h)

/-- Writing back the word that is there changes nothing. -/
theorem set_words_of_getElem {W : Words} {i : Fin 16} {x : Word} (h : W[i] = x) : W.set i x = W := by
  rw [← h]
  exact Vector.set_getElem_self i.isLt

theorem forall_mem_indices {q : Quad} {P : Fin 16 → Prop} :
    (∀ i ∈ q.indices, P i) ↔ P q.a ∧ P q.b ∧ P q.c ∧ P q.d := by
  simp [Quad.indices]

/-! ### One Shuffle (R76, R77) -/

/-- No step writes a word outside the quadruple. -/
theorem shuffleQuad_other (W : Words) (q : Quad) {i : Fin 16} (hi : i ∉ q.indices) :
    (shuffleQuad W q)[i] = W[i] := by
  obtain ⟨ha, hb, hc, hd⟩ := forall_mem_indices.mp fun j hj => ne_of_mem_of_not_mem hj hi
  simp only [shuffleQuad, shuffle, set_words_other _ ha, set_words_other _ hb, set_words_other _ hc,
    set_words_other _ hd]

/-- Settles O34: the four indices are distinct (R75), so a step's word keeps what the step wrote until a later step of
the same word. -/
theorem shuffleFollowsItsSteps : Obligations.ShuffleFollowsItsSteps := by
  intro W q
  obtain ⟨hab, hac, had, hbc, hbd, hcd⟩ := q.distinct
  refine ⟨?_, ?_, ?_, ?_, fun i hi => shuffleQuad_other W q hi⟩ <;>
    simp only [shuffleQuad, shuffle, set_words_same, set_words_other _ hab, set_words_other _ hac,
      set_words_other _ had, set_words_other _ hbc, set_words_other _ hbd, set_words_other _ hcd,
      set_words_other _ hab.symm, set_words_other _ hac.symm, set_words_other _ had.symm,
      set_words_other _ hbc.symm, set_words_other _ hbd.symm, set_words_other _ hcd.symm]

/-! ### Disjoint Shuffles and zero words (R78) -/

/-- A Shuffle reads no word outside its quadruple. -/
theorem shuffleQuad_congr {W V : Words} {q : Quad} (h : ∀ i ∈ q.indices, W[i] = V[i]) :
    ∀ i ∈ q.indices, (shuffleQuad W q)[i] = (shuffleQuad V q)[i] := by
  obtain ⟨hWa, hWb, hWc, hWd, -⟩ := shuffleFollowsItsSteps W q
  obtain ⟨hVa, hVb, hVc, hVd, -⟩ := shuffleFollowsItsSteps V q
  rw [forall_mem_indices] at h ⊢
  obtain ⟨ha, hb, hc, hd⟩ := h
  simp only [hWa, hWb, hWc, hWd, hVa, hVb, hVc, hVd, ha, hb, hc, hd, and_self]

/-- Before or after a Shuffle on other words, a quadruple's own Shuffle leaves the same values in it. -/
theorem shuffleQuad_comm_of_mem (W : Words) {q r : Quad} (hqr : ∀ i ∈ q.indices, i ∉ r.indices) {i : Fin 16}
    (hi : i ∈ q.indices) : (shuffleQuad (shuffleQuad W q) r)[i] = (shuffleQuad (shuffleQuad W r) q)[i] := by
  rw [shuffleQuad_other _ r (hqr i hi)]
  exact shuffleQuad_congr (fun j hj => (shuffleQuad_other W r (hqr j hj)).symm) i hi

theorem shuffleQuad_comm (W : Words) {q r : Quad} (hqr : ∀ i ∈ q.indices, i ∉ r.indices) :
    shuffleQuad (shuffleQuad W q) r = shuffleQuad (shuffleQuad W r) q := by
  have hrq : ∀ i ∈ r.indices, i ∉ q.indices := fun i hr hq => hqr i hq hr
  refine words_ext fun i => ?_
  by_cases hq : i ∈ q.indices
  · exact shuffleQuad_comm_of_mem W hqr hq
  by_cases hr : i ∈ r.indices
  · exact (shuffleQuad_comm_of_mem W hrq hr).symm
  · rw [shuffleQuad_other _ r hr, shuffleQuad_other _ q hq, shuffleQuad_other _ q hq, shuffleQuad_other _ r hr]

/-- On four zero words every step adds or XORs `rotl32 0 n`, which is 0, and so writes the zero back. -/
theorem shuffleQuad_of_zero {W : Words} {q : Quad} (h : ∀ i ∈ q.indices, W[i] = 0) : shuffleQuad W q = W := by
  have hset : ∀ i ∈ q.indices, W.set i 0#32 = W := fun i hi => set_words_of_getElem (h i hi)
  obtain ⟨ha, hb, hc, hd⟩ := forall_mem_indices.mp h
  obtain ⟨hsa, hsb, hsc, hsd⟩ := forall_mem_indices.mp hset
  simp only [shuffleQuad, shuffle, ha, hb, hc, hd, BitVec.ofNat_eq_ofNat, BitVec.xor_self, BitVec.add_zero,
    rotl32_zero, hsa, hsb, hsc, hsd]

/-- Settles O35: a Shuffle reads and writes its own four words only, and keeps four zeros. -/
theorem disjointShufflesCommute : Obligations.DisjointShufflesCommute :=
  ⟨fun W _ _ => shuffleQuad_comm W, fun _ _ => shuffleQuad_of_zero⟩

/-! ### The permutation and the default schedule (R79 to R83) -/

theorem addWords_getElem (W B : Words) (i : Fin 16) : (addWords W B)[i] = W[i] + B[i] :=
  Vector.getElem_zipWith i.isLt

/-- A schedule with one more round runs the others first. -/
theorem perm_append (sched : Schedule) (Q : List Quad) (ff : FFMode) (S : Words) :
    perm ⟨sched ++ [Q], ff⟩ S = roundStep (perm ⟨sched, ff⟩ S) Q (ffBase ff S (perm ⟨sched, ff⟩ S)) :=
  List.foldl_concat ..

/-- Settles O36: the last round of a longer schedule shuffles what the rounds before it give, and adds its mode's base
to every word. -/
theorem permutationFeedsForward : Obligations.PermutationFeedsForward := by
  refine ⟨fun _ => rfl, fun _ _ _ => rfl, fun _ _ => rfl, fun sched Q S i => ?_, fun sched Q S i => ?_⟩ <;>
    rw [perm_append, roundStep, addWords_getElem, ffBase]

/-- Settles O37, by evaluation: the two rounds are the group quadruples and then the cross quadruples. -/
theorem defaultScheduleQuadruples : Obligations.DefaultScheduleQuadruples := rfl

end Sys2Proof.Machine
end

section
/-! PROOFS. The block generator (43_block_generator.md R88 to R92): GEN, GEN_NEXT and ADVANCE in a session each
regenerate one block, whose words the session's key, nonce and parameters decide. -/

namespace Sys2Proof.Machine

open Sys2Proof

/-- One block regenerated and answered, with the registers it writes. -/
theorem Effect.regenerates_singleton_apply (b : U64) (data : List Byte) (s : State) :
    (Effect.regenerates [b] data).apply s = { s with
      S := injectBlock s.N0 b s.S
      KS := perm s.params (injectBlock s.N0 b s.S)
      LBI := b
      status := StatusCode.ok.code
      respData := data } := rfl

/-! ### GEN_NEXT below the last block and at it (R89) -/

theorem exec_genNext_of_ne_last {s : State} (hd : s.initDone = true) (hl : s.LBI ≠ 0xFFFFFFFFFFFFFFFF) :
    exec .genNext s =
      .next ((Effect.regenerates [s.LBI + 1] (blockBytes (s.regen (s.LBI + 1)).KS)).apply s) := by
  rw [exec, execGenNext, if_pos hd, if_neg hl]
  rfl

theorem exec_genNext_of_last {s : State} (hd : s.initDone = true) (hl : s.LBI = 0xFFFFFFFFFFFFFFFF) :
    exec .genNext s = .next (s.raise .keystreamExhausted) := by
  rw [exec, execGenNext, if_pos hd, if_pos hl]

/-! ### The whole next state of each command -/

/-- Settles O39: GEN regenerates block `b` in a session, and fails before INIT as every command but INIT does. -/
theorem genCompletes : Obligations.GenCompletes := by
  refine fun b s => ⟨fun hd => ?_, fun hd => exec_of_not_initDone nofun hd, rfl⟩
  rw [exec_gen_of_initDone b hd, Effect.regenerates_singleton_apply]
  rfl

/-- Settles O40: a case per outcome of the two checks of GEN_NEXT, INIT_DONE and the last block. -/
theorem genNextCompletes : Obligations.GenNextCompletes := by
  refine fun s => ⟨fun hd hl => ?_, exec_genNext_of_last, fun hd => exec_of_not_initDone nofun hd, rfl⟩
  rw [exec_genNext_of_ne_last hd hl, Effect.regenerates_singleton_apply]
  rfl

/-- Settles O41: ADVANCE regenerates block `b` in a session without an answer, and fails before INIT. -/
theorem advanceCompletes : Obligations.AdvanceCompletes := by
  refine fun b s => ⟨fun hd => ?_, fun hd => exec_of_not_initDone nofun hd, rfl⟩
  rw [exec_advance_of_initDone b hd, Effect.regenerates_singleton_apply]
  rfl

/-! ### The blocks of a session (R91, R92) -/

/-- A block regenerated in a session is that of the session's key and nonce: nothing of the block held before is left
in it. -/
theorem State.InSession.regen_KS {s : State} (h : s.InSession) (b : U64) :
    (s.regen b).KS = ksBlock s.params s.keyReg s.nonceReg b := by
  obtain ⟨-, -, hKS⟩ := h.regen b
  exact hKS

/-- Settles O42: both commands answer the block they regenerate, which is the session's. -/
theorem blocksDependOnSessionOnly : Obligations.BlocksDependOnSessionOnly := by
  intro b s hc hd
  have hs : s.InSession := hc.inSession hd
  refine ⟨⟨_, exec_gen_of_initDone b hd, rfl, ?_⟩, fun hl => ⟨_, exec_genNext_of_ne_last hd hl, rfl, ?_⟩⟩
  · rw [Effect.regenerates_singleton_apply, hs.regen_KS]
  · rw [Effect.regenerates_singleton_apply, hs.regen_KS]

end Sys2Proof.Machine
end

section
/-! PROOFS. XOR_BYTE and XOR_BUF (44_byte_xor.md): the whole next state of one byte (R94), the bytes and the frame of the
buffer loop in every state (R95), the loop as a sequence of XOR_BYTE commands (R96), the keystream it applies in a
session (R97, R98, R100), and the blocks it regenerates (R99). -/

namespace Sys2Proof.Machine

open Sys2Proof

/-! ### One byte (R94) -/

theorem exec_xorByte_of_initDone (off : U64) (x : Byte) {s : State} (hd : s.initDone = true) :
    exec (.xorByte off x) s = .next ((s.touch (blkOf off)).respond
      [x ^^^ ksByte (s.touch (blkOf off)).KS (posOf off)]) := by
  rw [exec, execXorByte, if_pos hd]
  rfl

/-- Settles O44: a case per outcome of the cache check, and the error before INIT. -/
theorem xorByteCompletes : Obligations.XorByteCompletes := by
  refine fun off x s => ⟨fun hd hit => ?_, fun hd miss => ?_, fun hd => exec_of_not_initDone nofun hd, rfl⟩
  · have htouch : s.touch (blkOf off) = s := if_pos hit
    rw [exec_xorByte_of_initDone off x hd, htouch]
    rfl
  · have htouch : s.touch (blkOf off) = s.regen (blkOf off) := if_neg miss
    rw [exec_xorByte_of_initDone off x hd, htouch]
    rfl

/-! ### The two outcomes of the range check of XOR_BUF (R95) -/

theorem offsetOverflows_of_range {start : U64} {n : Nat} (hrange : start.toNat + n ≤ 2 ^ 64) :
    offsetOverflows start n = false := by simpa [offsetOverflows] using hrange

theorem exec_xorBuf_of_range {start : U64} {buf : List Byte} {s : State} (hd : s.initDone = true)
    (hrange : start.toNat + buf.length ≤ 2 ^ 64) :
    exec (.xorBuf start buf) s = .next ((xorBytes start buf s).2.respond (xorBytes start buf s).1) := by
  rw [exec, execXorBuf, if_pos hd, offsetOverflows_of_range hrange, if_neg Bool.false_ne_true]

theorem exec_xorBuf_of_overflow {start : U64} {buf : List Byte} {s : State} (hd : s.initDone = true)
    (hrange : 2 ^ 64 < start.toNat + buf.length) :
    exec (.xorBuf start buf) s = .next (s.raise .offsetOverflow) := by
  have ho : offsetOverflows start buf.length = true := by simpa [offsetOverflows] using hrange
  rw [exec, execXorBuf, if_pos hd, if_pos ho]

/-! ### The bytes of the loop in every state (R95) -/

/-- Offsets of a range that ends at or before 2^64 do not wrap around. -/
theorem offset_toNat {start : U64} {i : Nat} (h : start.toNat + i < 2 ^ 64) :
    (start + BitVec.ofNat 64 i).toNat = start.toNat + i := by
  rw [BitVec.toNat_add, BitVec.toNat_ofNat]
  omega

/-- The block the loop from `start` reads the byte at `off` from: the cached block while the buffer is still in it, a
regenerated one after that. -/
def State.loopBlock (s : State) (start off : U64) : Words :=
  if blkOf start = s.LBI ∧ blkOf off = s.LBI then s.KS else perm s.params (injectBlock s.N0 (blkOf off) s.S)

theorem State.loopBlock_self (s : State) (off : U64) : s.loopBlock off off = (s.touch (blkOf off)).KS := by
  unfold State.loopBlock
  obtain ⟨hit, e⟩ | ⟨miss, e⟩ := s.touch_cases (blkOf off)
  · rw [e, if_pos ⟨hit, hit⟩]
  · rw [e, if_neg fun h => miss h.1, State.regen_KS]

/-- Between two offsets of one block lies no other block. -/
theorem blkOf_succ_of_lt {start off : U64} (hlt : start.toNat < off.toNat) (h : blkOf off = blkOf start) :
    blkOf (start + 1) = blkOf start := by
  have hsucc : (start + 1).toNat = start.toNat + 1 := offset_toNat (i := 1) (by omega)
  have hdiv := congrArg BitVec.toNat h
  apply BitVec.eq_of_toNat_eq
  rw [blkOf_toNat, blkOf_toNat] at hdiv ⊢
  omega

/-- The first byte's access to the cache leaves every later byte's block as it was: on a miss the block it brought in is
the regenerated one, and on a hit the buffer is in the cached block up to the first offset outside it. -/
theorem State.loopBlock_touch (s : State) {start off : U64} (hlt : start.toNat < off.toNat) :
    (s.touch (blkOf start)).loopBlock (start + 1) off = s.loopBlock start off := by
  obtain ⟨hit, e⟩ | ⟨miss, e⟩ := s.touch_cases (blkOf start) <;> rw [e]
  · have hiff : blkOf (start + 1) = s.LBI ∧ blkOf off = s.LBI ↔ blkOf start = s.LBI ∧ blkOf off = s.LBI := by
      refine and_congr_left fun hoff => ?_
      rw [blkOf_succ_of_lt hlt (hoff.trans hit.symm)]
    simp only [State.loopBlock, hiff]
  · have hmiss : ¬ (blkOf start = s.LBI ∧ blkOf off = s.LBI) := fun h => miss h.1
    rw [State.loopBlock, State.loopBlock, if_neg hmiss]
    split
    · next h => rw [show blkOf off = blkOf start from h.2, State.regen_KS]
    · simp

/-- Every byte the loop answers, in every state (R95). -/
theorem xorBytes_fst {start : U64} {buf : List Byte} (s : State) (hrange : start.toNat + buf.length ≤ 2 ^ 64) :
    (xorBytes start buf s).1 = buf.mapIdx fun i x =>
      x ^^^ ksByte (s.loopBlock start (start + BitVec.ofNat 64 i)) (posOf (start + BitVec.ofNat 64 i)) := by
  induction buf generalizing start s with
  | nil => rfl
  | cons x xs ih =>
    rw [List.length_cons] at hrange
    have hrest : (start + 1).toNat + xs.length ≤ 2 ^ 64 := by
      have hle : (start + 1).toNat ≤ start.toNat + 1 := Nat.mod_le _ _
      omega
    have hzero : start + BitVec.ofNat 64 0 = start := BitVec.add_zero start
    rw [List.mapIdx_cons, hzero, s.loopBlock_self, xorBytes]
    refine congrArg (_ :: ·) ((ih (s.touch (blkOf start)) hrest).trans ?_)
    rw [List.mapIdx_eq_mapIdx_iff]
    intro i hi
    have hlt : start.toNat < (start + BitVec.ofNat 64 (i + 1)).toNat := by
      rw [offset_toNat (by omega)]
      omega
    rw [offset_succ, s.loopBlock_touch hlt]

theorem xorBytes_LBI (start : U64) {buf : List Byte} (s : State) (hne : buf ≠ []) :
    (xorBytes start buf s).2.LBI = blkOf (start + BitVec.ofNat 64 (buf.length - 1)) := by
  induction buf generalizing start s with
  | nil => exact absurd rfl hne
  | cons x xs ih =>
    cases xs with
    | nil => simp [xorBytes, xorAt]
    | cons y ys => exact (ih (start + 1) (s.touch (blkOf start)) nofun).trans (by rw [offset_succ]; rfl)

/-- Settles O45: the loop's bytes, block and frame; the overflow and the state before INIT each raise their error. -/
theorem xorBufCompletes : Obligations.XorBufCompletes := by
  refine fun start buf s => ⟨fun hd hrange => ?_, exec_xorBuf_of_overflow,
    fun hd => exec_of_not_initDone nofun hd, rfl⟩
  refine ⟨_, exec_xorBuf_of_range hd hrange, rfl, xorBytes_length start buf s, fun i _ => ?_, ?_,
    xorBytes_S_other start buf s, ?_, xorBytes_LBI start s⟩
  · rw [State.respond_respData, xorBytes_fst s hrange, List.getElem?_mapIdx]
    rfl
  · rw [xorBytes_frame]
    rfl
  · rintro rfl
    exact ⟨rfl, rfl, rfl⟩

/-! ### The sequence of XOR_BYTE commands (R96) -/

/-- From equal datapaths, the sequence answers the loop's bytes and ends with the loop's datapath. Only the empty sequence
keeps STATUS; the datapath is what the induction carries, since each command also writes a response. -/
theorem SameDatapath.xorByteSequence_eq {s t : State} (h : SameDatapath s t) (hd : t.initDone = true) (start : U64)
    (buf : List Byte) :
    ∃ u, xorByteSequence start buf t = some ((xorBytes start buf s).1, u) ∧
      SameDatapath (xorBytes start buf s).2 u ∧ u.status = if buf = [] then t.status else 0x00 := by
  induction buf generalizing start s t with
  | nil => exact ⟨t, rfl, h, rfl⟩
  | cons x xs ih =>
    have ht := h.touch (blkOf start)
    have h1 (data : List Byte) : SameDatapath (s.touch (blkOf start)) ((t.touch (blkOf start)).respond data) :=
      ⟨ht.S, ht.N0, ht.KS, ht.LBI, ht.params⟩
    obtain ⟨u, hu, hdatapath, hstatus⟩ := ih (h1 [x ^^^ ksByte (t.touch (blkOf start)).KS (posOf start)])
      (by simpa using hd) (start + 1)
    refine ⟨u, ?_, hdatapath, ?_⟩
    · simp only [xorByteSequence, exec_xorByte_of_initDone start x hd, hu]
      rw [ht.KS]
      rfl
    · simpa [StatusCode.code] using hstatus

/-- Settles O47: XOR_BUF is the loop, and the sequence of XOR_BYTE commands does the same to the datapath. -/
theorem xorBufEqualsXorByteSequence : Obligations.XorBufEqualsXorByteSequence := by
  intro start buf s hd hrange
  obtain ⟨u, hu, hdatapath, hstatus⟩ := (SameReads.refl s).datapath hd |>.xorByteSequence_eq hd start buf
  exact ⟨_, u, _, hu, exec_xorBuf_of_range hd hrange, rfl, hdatapath.S.symm, hdatapath.KS.symm, hdatapath.LBI.symm,
    rfl, fun hne => hstatus.trans (if_neg hne), fun he => hstatus.trans (if_pos he)⟩

/-! ### The keystream of a session (R97, R98, R100) -/

@[simp] theorem keystreamXor_length (p : Params) (key : Key) (nonce : Nonce) (start : U64) (buf : List Byte) :
    (keystreamXor p key nonce start buf).length = buf.length := List.length_mapIdx

theorem keystreamXor_getElem? (p : Params) (key : Key) (nonce : Nonce) (start : U64) (buf : List Byte) (i : Nat) :
    (keystreamXor p key nonce start buf)[i]? =
      buf[i]?.map fun x => x ^^^ keystream p key nonce (start + BitVec.ofNat 64 i) := List.getElem?_mapIdx

/-- Encryption and decryption are one operation (R98). -/
theorem keystreamXor_keystreamXor (p : Params) (key : Key) (nonce : Nonce) (start : U64) (buf : List Byte) :
    keystreamXor p key nonce start (keystreamXor p key nonce start buf) = buf := by
  induction buf generalizing start with
  | nil => rfl
  | cons x xs ih => rw [keystreamXor_cons, keystreamXor_cons, ih, BitVec.xor_assoc, BitVec.xor_self, BitVec.xor_zero]

/-- Settles O48: in a session both commands answer the keystream XOR. -/
theorem cacheIsInvisible : Obligations.CacheIsInvisible := by
  intro s hc hd
  have hs : s.InSession := hc.inSession hd
  exact ⟨fun off x => ⟨_, hs.exec_xorByte hd off x, rfl, rfl⟩, fun start buf hrange =>
    ⟨_, hs.exec_xorBuf hd (offsetOverflows_of_range hrange), rfl, keystreamXor_length ..,
      fun i _ => keystreamXor_getElem? ..⟩⟩

/-- Settles O49: the second session has the first one's keystream, and XORing twice with it is the identity. -/
theorem sessionsDecryptEachOther : Obligations.SessionsDecryptEachOther := by
  intro s1 s2 hc1 hc2 hd1 hd2 hparams hkey hnonce
  have hs1 : s1.InSession := hc1.inSession hd1
  have hs2 : s2.InSession := hc2.inSession hd2
  refine ⟨fun start buf hrange => ?_, fun off x => ?_⟩
  · have ho := offsetOverflows_of_range hrange
    refine ⟨_, _, _, hs1.exec_xorBuf hd1 ho, hs2.exec_xorBuf hd2 ho, ?_, hs2.exec_xorBuf hd2 (by simpa using ho), ?_⟩
    · rw [State.respond_respData, State.respond_respData, hparams, hkey, hnonce]
    · rw [State.respond_respData, State.respond_respData, hparams, hkey, hnonce, keystreamXor_keystreamXor]
  · refine ⟨_, _, x ^^^ keystream s2.params s2.keyReg s2.nonceReg off, _, hs1.exec_xorByte hd1 off x,
      hs2.exec_xorByte hd2 off x, ?_, rfl, hs2.exec_xorByte hd2 off _, ?_⟩
    · rw [State.respond_respData, hparams, hkey, hnonce]
    · rw [State.respond_respData, BitVec.xor_assoc, BitVec.xor_self, BitVec.xor_zero]

/-! ### The regenerated blocks (R99) -/

/-- Once the cache holds the block of the offset before `a`, or that of `a` itself, the loop regenerates the blocks after
it up to the last byte's. Offsets are numbers here, since the one after the last byte may be 2^64. -/
theorem missedBlocks_map_toNat {lbi : U64} {a n : Nat} (hrange : a + n ≤ 2 ^ 64) (hlo : lbi.toNat * 64 ≤ a)
    (hhi : a ≤ lbi.toNat * 64 + 64) :
    (missedBlocks lbi (BitVec.ofNat 64 a) n).map BitVec.toNat =
      List.range' (lbi.toNat + 1) ((a + n - 1) / 64 - lbi.toNat) := by
  induction n generalizing lbi a with
  | zero =>
    have hnone : (a + 0 - 1) / 64 - lbi.toNat = 0 := by omega
    rw [hnone]
    rfl
  | succ n ih =>
    have hblk : (blkOf (BitVec.ofNat 64 a)).toNat = a / 64 := by
      rw [blkOf_toNat, BitVec.toNat_ofNat, Nat.mod_eq_of_lt (by omega)]
    have hsucc : BitVec.ofNat 64 a + 1 = BitVec.ofNat 64 (a + 1) := (BitVec.ofNat_add ..).symm
    have hend : a + (n + 1) - 1 = a + 1 + n - 1 := by omega
    rw [missedBlocks, hsucc, hend]
    split
    · next hit =>
      rw [hit] at hblk
      exact ih (by omega) (by omega) (by omega)
    · next miss =>
      have hnext : a / 64 = lbi.toNat + 1 := by
        have : a / 64 ≠ lbi.toNat := hblk ▸ fun h => miss (BitVec.eq_of_toNat_eq h)
        omega
      have hcount : (a + 1 + n - 1) / 64 - lbi.toNat = ((a + 1 + n - 1) / 64 - (lbi.toNat + 1)) + 1 := by omega
      rw [List.map_cons, ih (by omega) (by omega) (by omega), hblk, hnext, hcount, List.range'_succ]

/-- A miss brings the block in, and the loop goes on from the same offset with a hit. -/
theorem missedBlocks_of_miss {lbi off : U64} {n : Nat} (miss : blkOf off ≠ lbi) (hn : n ≠ 0) :
    missedBlocks lbi off n = blkOf off :: missedBlocks (blkOf off) off n := by
  obtain ⟨n, rfl⟩ := Nat.exists_eq_succ_of_ne_zero hn
  rw [missedBlocks, if_neg miss, missedBlocks, if_pos rfl]

/-- Settles O50: the loop's state is that of its misses, and these are the first block, unless it is cached, and then the
blocks after it. -/
theorem eachTouchedBlockRegeneratedOnce : Obligations.EachTouchedBlockRegeneratedOnce := by
  intro start buf s hne hrange
  refine ⟨xorBytes_snd start buf s, ?_⟩
  have hlen : buf.length ≠ 0 := by simpa using hne
  have hblk := blkOf_toNat start
  have hlater : (missedBlocks (blkOf start) start buf.length).map BitVec.toNat =
      List.range' (start.toNat / 64 + 1) ((start.toNat + buf.length - 1) / 64 - start.toNat / 64) := by
    have h := missedBlocks_map_toNat (lbi := blkOf start) hrange (by omega) (by omega)
    rwa [BitVec.ofNat_toNat, BitVec.setWidth_eq, hblk] at h
  by_cases hit : blkOf start = s.LBI
  · rw [hit] at hblk hlater
    rw [hlater, if_pos hblk.symm, if_pos hblk.symm, Nat.add_sub_cancel]
  · have hfirst : start.toNat / 64 ≠ s.LBI.toNat := hblk ▸ fun h => hit (BitVec.eq_of_toNat_eq h)
    rw [missedBlocks_of_miss hit hlen, List.map_cons, hlater, hblk, if_neg hfirst, if_neg hfirst, Nat.sub_zero,
      List.range'_succ]

end Sys2Proof.Machine
end

section
/-! PROOFS. What the unspecified reset contents can do (60_exceptions.md R105, 70_reset_and_hazards.md R116): every
operation of a step either keeps them the only difference between two states or overwrites them all. -/

namespace Sys2Proof.Machine

open Sys2Proof

/-- The registers whose reset contents are unspecified (10_state.md R29), taken from `u`. -/
def State.withUnspecified (s u : State) : State :=
  { s with S := u.S, N0 := u.N0, KS := u.KS, LBI := u.LBI, keyReg := u.keyReg, nonceReg := u.nonceReg }

theorem sameView_iff {s t : State} :
    SameView s t ↔ t = s.withUnspecified t ∧ (s.initDone = true → s = t) := Iff.rfl

theorem SameView.refl (s : State) : SameView s s := sameView_iff.mpr ⟨rfl, fun _ => rfl⟩

theorem SameView.eq_withUnspecified {s t : State} (h : SameView s t) : t = s.withUnspecified t := by
  obtain ⟨e, -⟩ := sameView_iff.mp h
  exact e

theorem SameView.eq_of_initDone {s t : State} (h : SameView s t) (hd : s.initDone = true) : s = t := by
  obtain ⟨-, e⟩ := sameView_iff.mp h
  exact e hd

/-- An operation keeps two states alike when it writes the specified fields from the specified fields alone and leaves
INIT_DONE as it is. -/
theorem SameView.map {s t : State} (h : SameView s t) (f : State → State)
    (hf : ∀ u, f (s.withUnspecified u) = (f s).withUnspecified (f (s.withUnspecified u)))
    (hd : (f s).initDone = s.initDone) : SameView (f s) (f t) := by
  have hft := hf t
  rw [← h.eq_withUnspecified] at hft
  exact sameView_iff.mpr ⟨hft, fun hfd => congrArg f (h.eq_of_initDone (hd ▸ hfd))⟩

/-- What reads none of the unspecified registers is the same of both states. -/
theorem SameView.read {s t : State} (h : SameView s t) {α : Type} (f : State → α)
    (hf : ∀ u, f (s.withUnspecified u) = f s) : f t = f s := by
  have hft := hf t
  rwa [← h.eq_withUnspecified] at hft

/-- An operation that reads none of the unspecified registers and overwrites them all leaves no difference. -/
theorem SameView.map_eq {s t : State} (h : SameView s t) (f : State → State)
    (hf : ∀ u, f (s.withUnspecified u) = f s) : SameView (f s) (f t) := by
  rw [h.read f hf]
  exact .refl (f s)

theorem SameView.accept {s t : State} (h : SameView s t) (k : Nat) : SameView (s.accept k) (t.accept k) :=
  h.map (State.accept k) (fun _ => rfl) rfl

theorem SameView.deliver {s t : State} (h : SameView s t) (k : Nat) : SameView (s.deliver k) (t.deliver k) :=
  h.map (State.deliver k) (fun _ => rfl) rfl

theorem SameView.regens {s t : State} (h : SameView s t) (bs : List U64) : SameView (s.regens bs) (t.regens bs) := by
  induction bs generalizing s t with
  | nil => exact h
  | cons b bs ih => exact ih (h.map (State.regen b) (fun _ => rfl) rfl)

/-- A reset event draws the contents anew, at equal counters. -/
theorem SameView.resetEvent {s t : State} (h : SameView s t) : SameView s.resetEvent t.resetEvent :=
  h.map_eq State.resetEvent fun _ => rfl

/-- A failure or a regeneration keeps the difference where it is; the start of a session overwrites it. -/
theorem SameView.apply {s t : State} (h : SameView s t) (E : Effect) : SameView (E.apply s) (E.apply t) := by
  cases E with
  | fails e => exact h.map (State.raise e) (fun _ => rfl) rfl
  | starts key nonce => exact h.map_eq (Effect.starts key nonce).apply fun _ => rfl
  | regenerates bs data => exact (h.regens bs).map (State.respond data) (fun _ => rfl) rfl

theorem SameView.hosts {s t : State} (h : SameView s t) : s.hosts = t.hosts :=
  (h.read State.hosts fun _ => rfl).symm

/-- The choice of the host reads none of the unspecified registers. -/
theorem SameView.sameTurn {s t : State} (h : SameView s t) : SameTurn s t where
  hosts := h.read State.hosts fun _ => rfl
  accepted := h.read State.accepted fun _ => rfl
  resetLine := h.read State.resetLine fun _ => rfl

/-- Before INIT a command reads INIT_DONE alone (R105), and in a session there is no difference. -/
theorem SameView.sameReads {s t : State} (h : SameView s t) : SameReads s t where
  initDone := h.read State.initDone fun _ => rfl
  datapath hd := by
    obtain rfl := h.eq_of_initDone hd
    exact (SameReads.refl s).datapath hd

/-- Settles O55: neither the choice of the host nor a command reads the contents, so both states take the same step, and
each kind of step keeps them the only difference or overwrites them. -/
theorem resetContentsAreUnobservable : Obligations.ResetContentsAreUnobservable := by
  intro s t hst
  obtain h | h | ⟨p, E, h⟩ := step_effect s
  · exact ⟨_, _, h s (.refl s), h t hst.sameTurn, hst.resetEvent, hst.resetEvent.hosts⟩
  · exact ⟨_, _, h s (.refl s), h t hst.sameTurn, hst, hst.hosts⟩
  · have hd := ((hst.accept p).apply E).deliver p
    exact ⟨_, _, h s (.refl s) (.refl s), h t hst.sameTurn hst.sameReads, hd, hd.hosts⟩

end Sys2Proof.Machine
end

section
/-! PROOFS. Errors (60_exceptions.md): which code a command answers and which check decides it (R101 to R105), what an
error leaves unchanged (R104), and the idle step (R114). -/

namespace Sys2Proof.Machine

open Sys2Proof

/-! ### The step goes on -/

/-- Settles O18: a step is a reset event, idle, or an effect, whose response has a defined code and is delivered. -/
theorem everyStepAnswersNext : Obligations.EveryStepAnswersNext := step_next

/-- Settles O13: with every script empty no host is ready, so none is chosen. -/
theorem idleStepRetainsState : Obligations.IdleStepRetainsState :=
  fun _ hr hempty => step_of_none hr (State.nextHost_eq_none.mpr (State.ready_of_empty hempty))

/-! ### Which code (R102, R103, R105) -/

/-- Settles O22: every command other than INIT tests INIT_DONE first. -/
theorem notInitializedBeforeInit : Obligations.NotInitializedBeforeInit :=
  fun _ _ hd hi => exec_of_not_initDone hi hd

/-- The codes of INIT (R103), from its two length checks. -/
theorem exec_init_status (key nonce : List Byte) (s : State) :
    ∃ t, exec (.init key nonce) s = .next t ∧ (t.status = 0x00 ∨ t.status = 0x03 ∨ t.status = 0x04) := by
  by_cases hk : key.length = 32
  · by_cases hn : nonce.length = 20
    · exact ⟨_, exec_init_of_lengths hk hn s, .inl rfl⟩
    · exact ⟨_, exec_init_of_nonce_length hk hn s, .inr (.inr rfl)⟩
  · exact ⟨_, exec_init_of_key_length hk nonce s, .inr (.inl rfl)⟩

/-- Settles O19: before INIT the one code of the other commands is 0x02; in a session each has a case per outcome of its
own check. -/
theorem statusCodesPerCommand : Obligations.StatusCodesPerCommand := by
  intro i s
  cases hd : s.initDone with
  | false =>
    cases i with
    | init key nonce => exact exec_init_status key nonce s
    | _ => exact ⟨_, exec_of_not_initDone nofun hd, by simp [StatusCode.code]⟩
  | true =>
    cases i with
    | init key nonce => exact exec_init_status key nonce s
    | gen b => exact ⟨_, exec_gen_of_initDone b hd, .inl rfl⟩
    | genNext =>
      by_cases hl : s.LBI = 0xFFFFFFFFFFFFFFFF
      · exact ⟨_, exec_genNext_of_last hd hl, .inr (.inr rfl)⟩
      · exact ⟨_, exec_genNext_of_ne_last hd hl, .inl rfl⟩
    | advance b => exact ⟨_, exec_advance_of_initDone b hd, .inl rfl⟩
    | xorByte off x => exact ⟨_, exec_xorByte_of_initDone off x hd, .inl rfl⟩
    | xorBuf start buf =>
      by_cases hrange : start.toNat + buf.length ≤ 2 ^ 64
      · exact ⟨_, exec_xorBuf_of_range hd hrange, .inl rfl⟩
      · exact ⟨_, exec_xorBuf_of_overflow hd (Nat.lt_of_not_le hrange), .inr (.inr rfl)⟩

/-- Settles O20: the decoder's two rejections, then the first check of the decoded command that fails. -/
theorem firstFailingCheckDecides : Obligations.FirstFailingCheckDecides := by
  intro t s
  refine ⟨fun hw => ?illegal, fun op hw hf => ?malformed, fun i hc hi hd => ?notInitialized,
    fun key nonce hc hk => ?key, fun key nonce hc hk hn => ?nonce, fun hc hd hl => ?exhausted,
    fun start buf hc hd hrange => ?overflow⟩
  case illegal => exact execTransaction_of_rejected (decode_eq_illegal_iff.mpr hw) s
  case malformed =>
    have hr : decode t = .rejected .malformedPayload := (decode_eq_malformed_iff hw).mpr (by simp [hf])
    exact execTransaction_of_rejected hr s
  case notInitialized => exact (execTransaction_of_command hc s).trans (exec_of_not_initDone hi hd)
  case key => exact (execTransaction_of_command hc s).trans (exec_init_of_key_length hk nonce s)
  case nonce => exact (execTransaction_of_command hc s).trans (exec_init_of_nonce_length hk hn s)
  case exhausted => exact (execTransaction_of_command hc s).trans (exec_genNext_of_last hd hl)
  case overflow => exact (execTransaction_of_command hc s).trans (exec_xorBuf_of_overflow hd hrange)

/-! ### What an error leaves unchanged (R104) -/

/-- No transaction reads STATUS or the last response, and each overwrites both (10_state.md R21). -/
theorem execTransaction_withResponse (t : Transaction) (s : State) (code : Byte) (data : List Byte) :
    execTransaction t { s with status := code, respData := data } = execTransaction t s := by
  cases hc : decode t with
  | command i =>
    rw [execTransaction_of_command hc, execTransaction_of_command hc]
    exact statusIsOverwritten i s code data
  | rejected why =>
    rw [execTransaction_of_rejected hc, execTransaction_of_rejected hc]
    rfl

/-- Settles O21: of the three effects only a failure answers a code other than 0x00, and it writes the response alone,
which the next transaction overwrites. -/
theorem errorChangesOnlyStatus : Obligations.ErrorChangesOnlyStatus := by
  intro t s s' e hne
  obtain ⟨E, hE⟩ := execTransaction_effect t s
  obtain rfl : E.apply s = s' := by simpa [hE s (.refl s)] using e
  cases E with
  | fails c => exact ⟨rfl, rfl, fun next => execTransaction_withResponse next s c.code []⟩
  | starts key nonce => exact absurd rfl hne
  | regenerates bs data => exact absurd rfl hne

end Sys2Proof.Machine
end

section
/-! PROOFS. Reset (70_reset_and_hazards.md R115, R116) and the end of a run (R125): every step of a run serves one
command, so a run with as many steps as there are commands serves them all. -/

namespace Sys2Proof.Machine

open Sys2Proof

/-! ### Reset -/

/-- Settles O15: both are fields of the reset state. -/
theorem resetClearsInitDoneAndStatus : Obligations.ResetClearsInitDoneAndStatus := ⟨rfl, rfl⟩

/-- Settles O14: the step is the reset event, which writes these fields and empties every script. -/
theorem resetEventEndsTheRun : Obligations.ResetEventEndsTheRun := fun s hr =>
  ⟨s.resetEvent, step_of_reset hr, s.resetEvent_initDone, s.resetEvent_status, s.resetEvent_resetLine,
    s.resetEvent_params, s.resetEvent_hosts⟩

/-! ### The commands a host has issued and has still to issue -/

/-- The commands of a port: those answered, one response each, and those still to issue. -/
def HostPort.commandCount (p : HostPort) : Nat := p.received.length + p.script.length

/-- A served port has one command less to issue and one response more, so as many commands as before. -/
theorem HostPort.commandCount_served {p : HostPort} {t : Transaction} {rest : List Transaction}
    (hs : p.script = t :: rest) (r : Response) :
    HostPort.commandCount ⟨rest, p.received ++ [r]⟩ = p.commandCount := by
  simp only [commandCount, hs, List.length_append, List.length_cons, List.length_nil]
  omega

/-- A port with an empty script holds one response per command. -/
theorem HostPort.received_length_of_done {p : HostPort} (hs : p.script = []) :
    p.received.length = p.commandCount := by
  simp [commandCount, hs]

theorem State.pendingCount_eq_zero {s : State} : s.pendingCount = 0 ↔ ∀ p ∈ s.hosts, p.script = [] := by
  simp [State.pendingCount, List.sum_eq_zero_iff]

theorem State.exists_command_of_pending {s : State} {n : Nat} (hn : s.pendingCount = n + 1) :
    ∃ p ∈ s.hosts, p.script ≠ [] := by
  by_contra! hempty
  rw [State.pendingCount_eq_zero.mpr hempty] at hn
  cases hn

/-! ### A run serves every command -/

/-- While a command is pending a step without reset takes one off, and no port's count of commands changes. -/
theorem step_of_pending {s : State} {n : Nat} (hr : s.resetLine = false) (hn : s.pendingCount = n + 1) :
    ∃ s', step s = .next s' ∧ s'.resetLine = false ∧ s'.pendingCount = n ∧
      s'.hosts.map HostPort.commandCount = s.hosts.map HostPort.commandCount := by
  obtain ⟨h, p, t, rest, s', hp, hs, hstep, hhosts, -, hr'⟩ :=
    eachStepServesOneHost s hr (State.exists_command_of_pending hn)
  obtain ⟨hlt, hget⟩ := List.getElem?_eq_some_iff.mp hp
  obtain ⟨before, after, hsplit, -, hset⟩ :=
    List.exists_of_set (a' := ⟨rest, p.received ++ [⟨s'.status, s'.respData⟩]⟩) hlt
  rw [hget] at hsplit
  rw [hset] at hhosts
  refine ⟨s', hstep, hr', ?pending, ?counts⟩
  case pending =>
    rw [State.pendingCount, hsplit] at hn
    simp only [List.map_append, List.map_cons, List.sum_append, List.sum_cons, hs, List.length_cons] at hn
    simp only [State.pendingCount, hhosts, List.map_append, List.map_cons, List.sum_append, List.sum_cons]
    omega
  case counts =>
    rw [hhosts, hsplit]
    simp [HostPort.commandCount_served hs]

theorem run_succ_of_step {M : Host.Core} {s s' : M.State} (hstep : M.step s = .next s') (n : Nat) :
    M.run (n + 1) s = M.run n s' := by
  rw [Host.Core.run, hstep]

/-- A run with as many steps as commands are pending leaves none, and no port's count of commands changes. -/
theorem run_of_pending {s : State} {n : Nat} (hr : s.resetLine = false) (hn : s.pendingCount = n) :
    ∃ s', core.run n s = .next s' ∧ s'.pendingCount = 0 ∧
      s'.hosts.map HostPort.commandCount = s.hosts.map HostPort.commandCount := by
  induction n generalizing s with
  | zero => exact ⟨s, rfl, hn, rfl⟩
  | succ n ih =>
    obtain ⟨s₁, hstep, hr₁, hn₁, hcounts₁⟩ := step_of_pending hr hn
    obtain ⟨s', hrun, hdone, hcounts⟩ := ih hr₁ hn₁
    exact ⟨s', (run_succ_of_step (M := core) hstep n).trans hrun, hdone, hcounts.trans hcounts₁⟩

/-- Settles O17: the run leaves no command pending, and a port without commands holds a response for each it had. -/
theorem runServesEveryCommand : Obligations.RunServesEveryCommand := by
  intro s hr
  obtain ⟨s', hrun, hdone, hcounts⟩ := run_of_pending hr rfl
  have hempty : ∀ p ∈ s'.hosts, p.script = [] := State.pendingCount_eq_zero.mp hdone
  refine ⟨s', hrun, hempty, ?_⟩
  calc s'.hosts.map (fun p => p.received.length)
      = s'.hosts.map HostPort.commandCount :=
        List.map_congr_left fun p hp => HostPort.received_length_of_done (hempty p hp)
    _ = s.hosts.map HostPort.commandCount := hcounts

end Sys2Proof.Machine
end
